-- ==== Sys2Proof/Config.lean ====
section
/-! DEFINITION. The OPEN parameters of 00_scope.md R7. A machine is built with one value of each and never changes it;
`State` holds them in a field that no step writes, so that a statement over all states is one over all parameters.
HOST_BIG_ENDIAN and UNALIGNED_FAST are omitted, as R8 says (assumption log 16).
The spec leaves no value of a command open, so there is no free value here. -/

namespace Sys2Proof

/-- The parameters R7 leaves OPEN. -/
structure Config where
  /-- MEM_SIZE (R7, R45): the number of bytes of host memory. -/
  memSize : Nat
  /-- ENGINE_BASE[i] (10_state.md R33): the bus address of each instance's register block. -/
  engineBase : List Nat
  deriving DecidableEq, Repr

/-- N_INST (R7): the number of engine instances, one for each base address (60_exceptions.md R169). -/
def Config.nInst (c : Config) : Nat := c.engineBase.length

/-- The size of a register block (10_state.md R33): 0x80 bytes. -/
def Config.blockSize : Nat := 0x80

/-- The parameters of `State.reset`. DESIGN CHOICE (assumption log 3 and 4): the spec leaves all of them OPEN.
MEM_SIZE is the one value spec/95_test_vectors.md runs its programs with; one instance, its block at bus address 0. -/
def Config.standard : Config where
  memSize := 0x1000
  engineBase := [0]

end Sys2Proof
end

