-- ==== Sys2Proof/Word.lean ====
section
/-! DEFINITION. The words of the engine: 00_scope.md R10 (u8, u32, u64) and R7 (WORD 32, COUNTER 64, ADDR_W 64).
All arithmetic on them wraps, which is `+32` and `+64` of R10. -/

namespace Sys2Proof

/-- `u8` of R10: a byte of host memory, of BUF or of a block. -/
abbrev Byte := BitVec 8

/-- `u32` of R10: a chaining word, a message word, a working register. -/
abbrev Word := BitVec 32

/-- `u64` of R10: an operand register, RESULT, COUNT, the value of a register access. -/
abbrev Dword := BitVec 64

end Sys2Proof
end

