-- ==== Sys2Proof/Syntax.lean ====
section
/-! DEFINITION. The syntax: the 13 commands of 30_encoding.md R66, the registers of 10_state.md R33, the host operations
a host program is made of (R74, R187) and the lines of the assembler (R74, R76). -/

namespace Sys2Proof

/-- A command (30_encoding.md R66): one constructor for each row of spec/opcode_table.json.
No command word holds a register number or an immediate (R65), so no constructor has an argument. -/
inductive Instr where
  | init
  | update
  | finalize
  | compress
  | ldLe32
  | ldBe32
  | ldLe64
  | ldBe64
  | stLe32
  | stBe32
  | stLe64
  | stBe64
  | misaligned
  deriving DecidableEq, Repr

/-- A named register of the host register block (10_state.md R33). -/
inductive Reg where
  | cmd
  | addr
  | len
  | val
  | result
  | status
  | count
  | h01
  | h23
  deriving DecidableEq, Repr

/-- A host access to the register block of an instance: the instance, the offset in its block, and how many bytes wide
the access is (8 for every access the spec gives a meaning to, 10_state.md R33 and R38). -/
structure Access where
  inst : Nat
  off : Nat
  bytes : Nat
  deriving DecidableEq, Repr

/-- One operation of the host program (30_encoding.md R74, 70_reset_and_hazards.md R187), or an event of the platform that
the run meets at this place. -/
inductive HostOp where
  /-- A register write: `W off=value` of R77. -/
  | write (a : Access) (v : Dword)
  /-- A register read: `R off` of R77. -/
  | read (a : Access)
  /-- A register write given by its bus address, ENGINE_BASE[i] + offset (10_state.md R33, 60_exceptions.md R169). -/
  | busWrite (busAddr bytes : Nat) (v : Dword)
  /-- A register read given by its bus address. -/
  | busRead (busAddr bytes : Nat)
  /-- CMD writes to several instances that run at once (20_memory.md R60): the instance and the value written to its CMD. -/
  | issueTogether (cmds : List (Nat × Dword))
  /-- Reset of an instance, an event of the platform (70_reset_and_hazards.md R175). -/
  | reset (inst : Nat)
  /-- The host stores bytes to the host memory it owns (00_scope.md R16, R187). -/
  | hostStore (addr : Nat) (data : List Byte)
  /-- The host loads one byte of host memory. -/
  | hostLoad (addr : Nat)
  deriving DecidableEq, Repr

/-- The byte order a mnemonic names: E of 30_encoding.md R67. -/
inductive Order where
  | little
  | big
  deriving DecidableEq, Repr

/-- The width of a byte-order access: W of 30_encoding.md R67. -/
inductive Width where
  | w32
  | w64
  deriving DecidableEq, Repr

/-- A line of an assembler program: the three forms of 30_encoding.md R74 and the pseudo-instructions of R76. -/
inductive AsmLine where
  /-- `wr REG, imm` -/
  | wr (r : Reg) (imm : Dword)
  /-- `rd REG` -/
  | rd (r : Reg)
  /-- a bare mnemonic -/
  | command (i : Instr)
  /-- `update a, n` -/
  | update (a n : Dword)
  /-- `finalize a` -/
  | finalize (a : Dword)
  /-- `compress a` -/
  | compress (a : Dword)
  /-- `ld.le32 a` and its three likes -/
  | ld (e : Order) (w : Width) (a : Dword)
  /-- `st.le32 a, v` and its three likes -/
  | st (e : Order) (w : Width) (a v : Dword)
  /-- `misaligned a, k` -/
  | misaligned (a k : Dword)
  /-- `md4 a, n, d` -/
  | md4 (a n d : Dword)
  deriving DecidableEq, Repr

end Sys2Proof
end

