-- ==== Sys2Proof/WellFormed.lean ====
section
/-! DEFINITION. Well-formed terms. A command has no field, so every command is well-formed; what can be ill-formed is the
configuration, a host operation (the accesses the spec refuses or says nothing of) and an assembler line. Each check has
an ill-formed term in Tests/Slice0.lean that it refuses. -/

namespace Sys2Proof

/-- Every command is well-formed: no command word holds an operand (30_encoding.md R65, R68). -/
def Instr.wf (_ : Instr) : Bool := true

/-- The limits R7 sets on the parameters: 1 <= MEM_SIZE <= 2^64, N_INST >= 1; and the register blocks do not overlap
(each instance has its own block, 10_state.md R33; DESIGN CHOICE, assumption log 14). -/
abbrev Config.wf (c : Config) : Prop :=
  1 ≤ c.memSize ∧ c.memSize ≤ 2 ^ 64 ∧ 1 ≤ c.nInst ∧
    c.engineBase.Pairwise (fun a b => a + Config.blockSize ≤ b ∨ b + Config.blockSize ≤ a)

/-- An access the spec gives a meaning to (10_state.md R33, R38): an instance that exists, an offset inside the block
that is a multiple of 8, all 64 bits. -/
abbrev Access.wf (nInst : Nat) (a : Access) : Prop :=
  a.inst < nInst ∧ a.off < Config.blockSize ∧ a.bytes = 8 ∧ a.off % 8 = 0

/-- A bus address and width that reach a whole register of some instance (10_state.md R33). -/
abbrev Config.busWf (c : Config) (busAddr bytes : Nat) : Prop :=
  bytes = 8 ∧ ∃ b ∈ c.engineBase, b ≤ busAddr ∧ busAddr < b + Config.blockSize ∧ (busAddr - b) % 8 = 0

/-- A host operation the model does not turn away for its form. (A race, 20_memory.md R60, depends on the state and is
no matter of form.) -/
def HostOp.wf (c : Config) : HostOp → Bool
  | .write a _ => decide (a.wf c.nInst)
  | .read a => decide (a.wf c.nInst)
  | .busWrite b n _ => decide (c.busWf b n)
  | .busRead b n => decide (c.busWf b n)
  | .issueTogether cmds => decide ((∀ p ∈ cmds, p.1 < c.nInst) ∧ (cmds.map (·.1)).Nodup)
  | .reset i => decide (i < c.nInst)
  | .hostStore a data => decide (a + data.length ≤ c.memSize)
  | .hostLoad a => decide (a < c.memSize)

/-- The registers `wr` names (30_encoding.md R74): "ADDR, LEN, VAL, or CMD". -/
def Reg.writable : Reg → Bool
  | .cmd | .addr | .len | .val => true
  | .result | .status | .count | .h01 | .h23 => false

/-- An assembler line of R74 and R76: `wr` names a register R74 allows. -/
def AsmLine.wf : AsmLine → Bool
  | .wr r _ => r.writable
  | .rd _ => true
  | .command i => i.wf
  | .update _ _ => true
  | .finalize _ => true
  | .compress _ => true
  | .ld _ _ _ => true
  | .st _ _ _ _ => true
  | .misaligned _ _ => true
  | .md4 _ _ _ => true

end Sys2Proof
end

