-- ==== Sys2Proof/Decode.lean ====
section
/-! DEFINITION. The decoder of 30_encoding.md R73, total on every 64-bit value written to CMD and rejecting by name; and
after it the encoder, from the opcode map of R66. -/

namespace Sys2Proof

/-- Why a CMD write is illegal: the three grounds of 30_encoding.md R70, in the order R73 tests them. -/
inductive Illegal where
  /-- v[63:32] != 0. -/
  | highHalf
  /-- RSV = w[31:8] != 0. -/
  | reservedBits
  /-- OPC = w[7:0] is none of the 13 values of R66. -/
  | unassignedOpcode
  deriving DecidableEq, Repr

/-- The opcode map of 30_encoding.md R66, from opcode to command. -/
def instrOfOpcode (opc : BitVec 8) : Option Instr :=
  if opc = 0x01#8 then some .init
  else if opc = 0x02#8 then some .update
  else if opc = 0x03#8 then some .finalize
  else if opc = 0x04#8 then some .compress
  else if opc = 0x10#8 then some .ldLe32
  else if opc = 0x11#8 then some .ldBe32
  else if opc = 0x12#8 then some .ldLe64
  else if opc = 0x13#8 then some .ldBe64
  else if opc = 0x14#8 then some .stLe32
  else if opc = 0x15#8 then some .stBe32
  else if opc = 0x16#8 then some .stLe64
  else if opc = 0x17#8 then some .stBe64
  else if opc = 0x18#8 then some .misaligned
  else none

/-- `decode(v)` of 30_encoding.md R73. -/
def decode (v : Dword) : Except Illegal Instr :=
  if v.extractLsb' 32 32 ≠ 0#32 then .error .highHalf
  else if v.extractLsb' 8 24 ≠ 0#24 then .error .reservedBits
  else
    match instrOfOpcode (v.extractLsb' 0 8) with
    | some i => .ok i
    | none => .error .unassignedOpcode

/-- The opcode of a command: the map of 30_encoding.md R66. -/
def opcodeOf : Instr → BitVec 8
  | .init => 0x01
  | .update => 0x02
  | .finalize => 0x03
  | .compress => 0x04
  | .ldLe32 => 0x10
  | .ldBe32 => 0x11
  | .ldLe64 => 0x12
  | .ldBe64 => 0x13
  | .stLe32 => 0x14
  | .stBe32 => 0x15
  | .stLe64 => 0x16
  | .stBe64 => 0x17
  | .misaligned => 0x18

/-- The command word (30_encoding.md R65): RSV = 0 in bits 31:8, the opcode in bits 7:0. -/
def encode (i : Instr) : BitVec 32 := 0#24 ++ opcodeOf i

/-- The value the host writes to CMD (30_encoding.md R64): the command word in the low half, 0 above. -/
def encodeCmd (i : Instr) : Dword := (encode i).setWidth 64

/-- The sub-fields of an opcode 0x10 | S << 2 | W << 1 | E (30_encoding.md R67): S = OPC[2], W = OPC[1], E = OPC[0]. -/
def byteOrderOpcode (store wide big : Bool) : BitVec 8 :=
  0x10#8 ||| ((BitVec.ofBool store).setWidth 8 <<< 2) ||| ((BitVec.ofBool wide).setWidth 8 <<< 1)
    ||| (BitVec.ofBool big).setWidth 8

/-- The command that the sub-fields of 30_encoding.md R67 select. -/
def byteOrderInstr (store : Bool) (w : Width) (e : Order) : Instr :=
  match store, w, e with
  | false, .w32, .little => .ldLe32
  | false, .w32, .big => .ldBe32
  | false, .w64, .little => .ldLe64
  | false, .w64, .big => .ldBe64
  | true, .w32, .little => .stLe32
  | true, .w32, .big => .stBe32
  | true, .w64, .little => .stLe64
  | true, .w64, .big => .stBe64

/-- The command the decoder reads from a table word of `nbits` bits (bits at and above `nbits` are 0). The engine is given
its commands as 64-bit values (30_encoding.md R64), so a word that does not fit in 64 bits is no command
(assumption log 20). -/
def decodeTableWord (nbits w : Nat) : Option Instr :=
  if w % 2 ^ nbits < 2 ^ 64 then
    match decode (BitVec.ofNat 64 (w % 2 ^ nbits)) with
    | .ok i => some i
    | .error _ => none
  else none

end Sys2Proof
end

