-- ==== Sys2Proof/Machine/State.lean ====
section
/-! DEFINITION. The state of the machine: N_INST engine instances with all that 10_state.md R20 gives each, the host memory
they share (R43), the parameters, and the run (70_reset_and_hazards.md R186 to R188): the host program, the position in
it and the observations. -/

namespace Sys2Proof.Machine

/-- PHASE (10_state.md R29). -/
inductive Phase where
  | uninit
  | empty
  | accum
  | final
  deriving DecidableEq, Repr

/-- FAULT_CODE (60_exceptions.md R151). "Codes 0x05 to 0xFF are never produced", so the field's type has the five codes. -/
inductive FaultCode where
  | none
  | illegal
  | usage
  | alignArg
  | range
  deriving DecidableEq, Repr

/-- Four 32-bit words named A, B, C, D: the chaining state H[0..3] (10_state.md R25), or the four working registers of the
compression function (R32). -/
structure Chain where
  a : Word
  b : Word
  c : Word
  d : Word
  deriving DecidableEq, Repr

/-- The state of one engine instance: exactly the list of 10_state.md R20. -/
structure Engine where
  /-- ADDR (R22). -/
  addr : Dword
  /-- LEN (R23). -/
  len : Dword
  /-- VAL (R24). -/
  val : Dword
  /-- RESULT (R30). -/
  result : Dword
  /-- H[0..3] (R25). -/
  h : Chain
  /-- BUF[0..63] (R26): all 64 bytes, those with no meaning too (R28, assumption log 11). -/
  buf : Vector Byte 64
  /-- COUNT (R27). -/
  count : Dword
  /-- PHASE (R29). -/
  phase : Phase
  /-- HALTED (R31). -/
  halted : Bool
  /-- FAULT_CODE (R31). -/
  faultCode : FaultCode
  deriving DecidableEq, Repr

/-- The reset values of one instance (10_state.md R41). H is 0, not the initial constants. -/
def Engine.reset : Engine where
  addr := 0
  len := 0
  val := 0
  result := 0
  h := { a := 0, b := 0, c := 0, d := 0 }
  buf := Vector.replicate 64 0
  count := 0
  phase := .uninit
  halted := false
  faultCode := .none

/-- Host memory (20_memory.md R45), as the list of its bytes that differ from what an unlisted address reads as, addresses
strictly rising (`Memory.wf` in Machine/Ops.lean). -/
abbrev Memory := List Host.Cell

/-- The whole machine. -/
structure State where
  /-- The parameters (00_scope.md R7). No step writes this field. -/
  cfg : Config
  /-- The instances 0 .. N_INST-1 (60_exceptions.md R169), each with its own state (10_state.md R43). -/
  engines : List Engine
  /-- The MODEL's own field (assumption log 6): the instance whose register block the host addressed last. `exec` acts on
  this instance. -/
  sel : Nat
  /-- Host memory, shared by all instances and the host (R20, R43). -/
  mem : Memory
  /-- The host operations still to perform (R186). -/
  prog : List HostOp
  /-- The position in the program: the index of the next host operation (R21). -/
  pos : Nat
  /-- What the program's reads have returned so far, oldest first (R187). -/
  obs : List Dword
  deriving DecidableEq, Repr

/-- Why a step stops with a fault. A fault that a COMMAND raises is no stop: it is taken, as a next state
(60_exceptions.md R152, assumption log 17). -/
inductive Fault where
  /-- Raised by the host's own load or store (`HostOp.hostLoad`, `HostOp.hostStore`) of an address at or above MEM_SIZE:
  20_memory.md R45 says that no such address exists. Safe: the model stops (assumption log 10). -/
  | hostAddressOutOfMemory
  deriving DecidableEq, Repr

/-- Why a step is refused. No command that `exec` runs on an instance that exists is refused: the reasons below are the
host's accesses that the spec refuses or gives no meaning. -/
inductive Refusal where
  /-- An instruction with no meaning yet, by its mnemonic. No arm of `exec` uses it. Safe. -/
  | notModelled (mnemonic : String)
  /-- Raised by a register access, a CMD write or a reset that names an instance at or above N_INST, and by `exec` where
  `sel` names none (60_exceptions.md R169: instances are numbered 0 .. N_INST-1). Safe. -/
  | noSuchInstance
  /-- Raised by a register access that is not 64 bits wide, or not at a multiple of 8: "outside this spec. A model refuses
  it" (10_state.md R38, D28). Safe. -/
  | partialAccess
  /-- Raised by a register access at an offset at or above 0x80: no part of the block (10_state.md R33). Safe. -/
  | outsideBlock
  /-- Raised by a bus access whose address lies in no instance's block (10_state.md R33). Safe. -/
  | noRegisterBlock
  /-- Raised by `issueTogether` where two commands' byte ranges overlap and one writes: "the model refuses the run (a
  race)" (20_memory.md R60). Safe. -/
  | race
  /-- Raised by `issueTogether` where two CMD writes name one instance: an instance "executes one command at a time"
  (00_scope.md R16). Safe. -/
  | sameInstanceTwice
  deriving DecidableEq, Repr

/-- What `exec`, `step` and the operations below them answer. -/
abbrev Out := Host.Outcome State Fault Refusal

/-- The machine right after reset: every instance at the values of 10_state.md R41. The parameters, and the contents of a
memory nobody has written, are choices (assumption log 3, 4, 5); no program is loaded (log 2). -/
def State.reset : State where
  cfg := Config.standard
  engines := List.replicate Config.standard.nInst Engine.reset
  sel := 0
  mem := []
  prog := []
  pos := 0
  obs := []

end Sys2Proof.Machine
end

