-- ==== Sys2Proof/Machine/Ops.lean ====
section
/-! DEFINITION. The shared operations: host memory (20_memory.md R45 to R51), the guard of a halted instance
(60_exceptions.md R153), and taking a fault (R152). There is no return from a fault: only reset leaves it (R162). -/

namespace Sys2Proof.Machine

/-! ### Host memory -/

/-- What a byte of host memory that nobody has written reads as. DESIGN CHOICE (assumption log 5): the spec leaves the
initial contents to the launch state (70_reset_and_hazards.md R186). -/
def Memory.unlisted : Byte := 0x00

/-- The canonical form of a memory: addresses strictly rising, no byte listed that reads as an unlisted one. -/
abbrev Memory.wf (m : Memory) : Prop :=
  m.Pairwise (fun p q => p.1 < q.1) ∧ ∀ p ∈ m, p.2 ≠ Memory.unlisted

/-- M[a] (20_memory.md R48): the byte at an address. -/
def Memory.readByte : Memory → Nat → Byte
  | [], _ => Memory.unlisted
  | (a', b) :: m, a => if a = a' then b else Memory.readByte m a

/-- M[a] <- b (20_memory.md R49), keeping the canonical form. -/
def Memory.writeByte : Memory → Nat → Byte → Memory
  | [], a, b => if b = Memory.unlisted then [] else [(a, b)]
  | (a', b') :: m, a, b =>
    if a < a' then
      if b = Memory.unlisted then (a', b') :: m else (a, b) :: (a', b') :: m
    else if a = a' then
      if b = Memory.unlisted then m else (a, b) :: m
    else (a', b') :: Memory.writeByte m a b

/-- `MemRead(addr, n)` (20_memory.md R48): the bytes at addr .. addr+n-1, in increasing address order. -/
def Memory.read (m : Memory) (addr n : Nat) : List Byte :=
  (List.range n).map fun i => m.readByte (addr + i)

/-- `MemWrite(addr, |s|, s)` (20_memory.md R49): s[0] at addr. -/
def Memory.write : Memory → Nat → List Byte → Memory
  | m, _, [] => m
  | m, addr, b :: s => Memory.write (m.writeByte addr b) (addr + 1) s

/-- `InRange(addr, n)` (20_memory.md R50), over the unbounded integers: an access of no bytes is in range anywhere, and
no address wraps (R51). -/
def inRange (memSize addr n : Nat) : Bool := n == 0 || decide (addr + n ≤ memSize)

/-! ### The instance a command runs on -/

/-- The state with the selected instance changed; every other instance, the memory and the run are as before. -/
def State.withEngine (s : State) (e : Engine) : State := { s with engines := s.engines.set s.sel e }

/-- A CMD write served by the selected instance (10_state.md R35): "While HALTED = 1, the engine executes no command"
(R31), so nothing changes then (60_exceptions.md R153); otherwise `body` runs, with the instance as it stands. -/
def State.onCommand (s : State) (body : Engine → Out) : Out :=
  match s.engines[s.sel]? with
  | none => .refused .noSuchInstance
  | some e => if e.halted then .next s else body e

/-- Taking a fault, `raise Fault(code)` (60_exceptions.md R152): HALTED <- 1 and FAULT_CODE <- code, nothing else. -/
def Engine.raise (e : Engine) (code : FaultCode) : Engine := { e with halted := true, faultCode := code }

/-- A command that ends in `raise Fault(code)`: the instance takes the fault, and the machine goes on. -/
def State.raise (s : State) (e : Engine) (code : FaultCode) : Out := .next (s.withEngine (e.raise code))

/-- Run one operation after another; a stop ends the sequence. -/
def andThen (o : Out) (k : State → Out) : Out :=
  match o with
  | .next s => k s
  | .fault r => .fault r
  | .refused r => .refused r

end Sys2Proof.Machine
end

