-- ==== Sys2Proof/Machine/Operands.lean ====
section
/-! DEFINITION. Operands and byte order. Every operand is a whole operand register read as a u64 (30_encoding.md R68, R69);
memory operands are byte sequences, turned into numbers by the byte-assembly functions of 40_byteorder.md R80 to R83,
which are the reference semantics (R85). A missing byte would read as 0; no command has one (assumption log 19). -/

namespace Sys2Proof.Machine

/-! ### Byte assembly -/

/-- `le32(s)` (40_byteorder.md R80). -/
def le32 (s : List Byte) : Word :=
  (s.getD 0 0).setWidth 32 ||| ((s.getD 1 0).setWidth 32 <<< 8)
    ||| ((s.getD 2 0).setWidth 32 <<< 16) ||| ((s.getD 3 0).setWidth 32 <<< 24)

/-- `be32(s)` (40_byteorder.md R80). -/
def be32 (s : List Byte) : Word :=
  ((s.getD 0 0).setWidth 32 <<< 24) ||| ((s.getD 1 0).setWidth 32 <<< 16)
    ||| ((s.getD 2 0).setWidth 32 <<< 8) ||| (s.getD 3 0).setWidth 32

/-- `le64(s)` (40_byteorder.md R81): the sum of s[i] * 2^(8*i). -/
def le64 (s : List Byte) : Dword :=
  BitVec.ofNat 64 ((List.range 8).map fun i => (s.getD i 0).toNat * 2 ^ (8 * i)).sum

/-- `be64(s)` (40_byteorder.md R81): the sum of s[i] * 2^(8*(7-i)). -/
def be64 (s : List Byte) : Dword :=
  BitVec.ofNat 64 ((List.range 8).map fun i => (s.getD i 0).toNat * 2 ^ (8 * (7 - i))).sum

/-- `le32bytes(v)` (40_byteorder.md R82). -/
def le32bytes (v : Word) : List Byte :=
  [v.extractLsb' 0 8, v.extractLsb' 8 8, v.extractLsb' 16 8, v.extractLsb' 24 8]

/-- `be32bytes(v)` (40_byteorder.md R82). -/
def be32bytes (v : Word) : List Byte :=
  [v.extractLsb' 24 8, v.extractLsb' 16 8, v.extractLsb' 8 8, v.extractLsb' 0 8]

/-- `le64bytes(v)` (40_byteorder.md R83): byte i is v[8i+7:8i]. -/
def le64bytes (v : Dword) : List Byte := (List.range 8).map fun i => v.extractLsb' (8 * i) 8

/-- `be64bytes(v)` (40_byteorder.md R83): byte i is v[63-8i:56-8i]. -/
def be64bytes (v : Dword) : List Byte := (List.range 8).map fun i => v.extractLsb' (56 - 8 * i) 8

/-! ### Operands -/

/-- The low half of VAL, which the 32-bit stores use (30_encoding.md R69). -/
def Engine.valLow (e : Engine) : Word := e.val.extractLsb' 0 32

/-- `IsPow2(k)` (40_byteorder.md R95): k != 0 and (k & (k - 1)) = 0. -/
def isPow2 (k : Dword) : Bool := k ≠ 0 && (k &&& (k - 1)) = 0

/-- The n bytes of memory at ADDR, if they are in range (20_memory.md R50): the source of LD_*, COMPRESS and UPDATE. -/
def State.sourceBytes (s : State) (e : Engine) (n : Nat) : Option (List Byte) :=
  if inRange s.cfg.memSize e.addr.toNat n then some (s.mem.read e.addr.toNat n) else none

/-- The state with bytes stored at ADDR: the destination of ST_* and FINALIZE (20_memory.md R49). -/
def State.storeAtAddr (s : State) (e : Engine) (bytes : List Byte) : State :=
  { s with mem := s.mem.write e.addr.toNat bytes }

end Sys2Proof.Machine
end

