-- ==== Sys2Proof/Machine/ByteOrder.lean ====
section
/-! DEFINITION. The byte-order commands (40_byteorder.md sections 2 to 4): LD_*, ST_* and MISALIGNED. They run in every
phase (R98) and never touch H, BUF, COUNT or PHASE (R97). -/

namespace Sys2Proof.Machine

/-- The shape of LD_* (R86 to R89): RANGE if the n bytes at ADDR are not in range, else RESULT <- value of the bytes. -/
def loadCommand (n : Nat) (value : List Byte → Dword) (s : State) : Out :=
  s.onCommand fun e =>
    match s.sourceBytes e n with
    | none => s.raise e .range
    | some bytes => .next (s.withEngine { e with result := value bytes })

/-- The shape of ST_* (R90 to R93): RANGE if the bytes do not fit at ADDR, else they are stored there. -/
def storeCommand (bytesOf : Engine → List Byte) (s : State) : Out :=
  s.onCommand fun e =>
    if inRange s.cfg.memSize e.addr.toNat (bytesOf e).length then .next (s.storeAtAddr e (bytesOf e))
    else s.raise e .range

/-- LD_LE32 (40_byteorder.md R86). -/
def execLdLe32 (s : State) : Out := loadCommand 4 (fun bytes => (le32 bytes).setWidth 64) s

/-- LD_BE32 (40_byteorder.md R87). -/
def execLdBe32 (s : State) : Out := loadCommand 4 (fun bytes => (be32 bytes).setWidth 64) s

/-- LD_LE64 (40_byteorder.md R88). -/
def execLdLe64 (s : State) : Out := loadCommand 8 le64 s

/-- LD_BE64 (40_byteorder.md R89). -/
def execLdBe64 (s : State) : Out := loadCommand 8 be64 s

/-- ST_LE32 (40_byteorder.md R90): VAL[63:32] is ignored. -/
def execStLe32 (s : State) : Out := storeCommand (fun e => le32bytes e.valLow) s

/-- ST_BE32 (40_byteorder.md R91): VAL[63:32] is ignored. -/
def execStBe32 (s : State) : Out := storeCommand (fun e => be32bytes e.valLow) s

/-- ST_LE64 (40_byteorder.md R92). -/
def execStLe64 (s : State) : Out := storeCommand (fun e => le64bytes e.val) s

/-- ST_BE64 (40_byteorder.md R93). -/
def execStBe64 (s : State) : Out := storeCommand (fun e => be64bytes e.val) s

/-- MISALIGNED (40_byteorder.md R94): ADDR is the pointer, LEN the alignment. -/
def execMisaligned (s : State) : Out :=
  s.onCommand fun e =>
    if isPow2 e.len then
      .next (s.withEngine { e with result := if e.addr &&& (e.len - 1) ≠ 0 then 1 else 0 })
    else s.raise e .alignArg

end Sys2Proof.Machine
end

