-- ==== Sys2Proof/Machine/Compression.lean ====
section
/-! DEFINITION. The compression function (41_compression.md) and the COMPRESS command. -/

namespace Sys2Proof.Machine

/-! ### Round functions, constants, schedules -/

/-- `f1` (41_compression.md R100). -/
def f1 (x y z : Word) : Word := (x &&& y) ||| (~~~x &&& z)

/-- `f2` (41_compression.md R101). -/
def f2 (x y z : Word) : Word := (x &&& y) ||| (x &&& z) ||| (y &&& z)

/-- `f3` (41_compression.md R102). -/
def f3 (x y z : Word) : Word := x ^^^ y ^^^ z

/-- `rotl32(x, s)` for 1 <= s <= 31 (00_scope.md R12). -/
def rotl32 (x : Word) (s : Nat) : Word := (x <<< s) ||| (x >>> (32 - s))

/-- The three rounds. -/
inductive Round where
  | r1
  | r2
  | r3
  deriving DecidableEq, Repr

/-- f_r (R100 to R102). -/
def Round.f : Round → Word → Word → Word → Word
  | .r1 => f1
  | .r2 => f2
  | .r3 => f3

/-- K[r] (R103). -/
def Round.k : Round → Word
  | .r1 => 0x00000000
  | .r2 => 0x5A827999
  | .r3 => 0x6ED9EBA1

/-- S[r][0..3] (R103). -/
def Round.shifts : Round → List Nat
  | .r1 => [3, 7, 11, 19]
  | .r2 => [3, 5, 9, 13]
  | .r3 => [3, 9, 11, 15]

/-- k(r, 0..15): the order in which a round reads the message words (R104). -/
def Round.order : Round → List Nat
  | .r1 => [0, 1, 2, 3, 4, 5, 6, 7, 8, 9, 10, 11, 12, 13, 14, 15]
  | .r2 => [0, 4, 8, 12, 1, 5, 9, 13, 2, 6, 10, 14, 3, 7, 11, 15]
  | .r3 => [0, 8, 4, 12, 2, 10, 6, 14, 1, 9, 5, 13, 3, 11, 7, 15]

/-- The shift amount of step i: S[r][i mod 4] (R103). -/
def Round.shift (r : Round) (i : Nat) : Nat := r.shifts.getD (i % 4) 0

/-- The message word of step i: k(r, i) (R104). -/
def Round.wordIndex (r : Round) (i : Nat) : Nat := r.order.getD i 0

/-! ### The compression function -/

/-- X[0..15] (R107): X[j] = le32(block[4j .. 4j+4)). -/
def messageWords (block : List Byte) : List Word :=
  (List.range 16).map fun j => le32 ((block.drop (4 * j)).take 4)

/-- T <- rotl32(T + f_r(x, y, z) + X[k] + K[r], s) (R106): the new value of the active register. -/
def mixed (r : Round) (i : Nat) (xs : List Word) (t x y z : Word) : Word :=
  rotl32 (t + r.f x y z + xs.getD (r.wordIndex i) 0 + r.k) (r.shift i)

/-- One step, round r, step i (R106), with the register roles of R105: the active register cycles A, D, C, B. -/
def mixStep (r : Round) (xs : List Word) (w : Chain) (i : Nat) : Chain :=
  match i % 4 with
  | 0 => { w with a := mixed r i xs w.a w.b w.c w.d }
  | 1 => { w with d := mixed r i xs w.d w.a w.b w.c }
  | 2 => { w with c := mixed r i xs w.c w.d w.a w.b }
  | _ => { w with b := mixed r i xs w.b w.c w.d w.a }

/-- `Round(r, (A, B, C, D), X)` (R116): the steps i = 0..15 of round r. -/
def mixRound (r : Round) (xs : List Word) (w : Chain) : Chain := (List.range 16).foldl (mixStep r xs) w

/-- Word by word, mod 2^32 (R109). -/
def Chain.add (h w : Chain) : Chain where
  a := h.a + w.a
  b := h.b + w.b
  c := h.c + w.c
  d := h.d + w.d

/-- `Compress(H, block)` (R108): three rounds seeded from H, then the feed-forward of R109. It is called on blocks of 64
bytes only (R115). -/
@[irreducible] def compress (h : Chain) (block : List Byte) : Chain :=
  let xs := messageWords block
  h.add (mixRound .r3 xs (mixRound .r2 xs (mixRound .r1 xs h)))

/-! ### The equivalent forms of R110 and R111 -/

/-- `f1` by R111. -/
def f1Alt (x y z : Word) : Word := z ^^^ (x &&& (y ^^^ z))

/-- `f2` by R111. -/
def f2Alt (x y z : Word) : Word := (x &&& y) ||| (z &&& (x ||| y))

/-- One step of the rotating form (R110): (a, b, c, d) <- (d, t, b, c). -/
def rotatingStep (r : Round) (xs : List Word) (w : Chain) (i : Nat) : Chain where
  a := w.d
  b := mixed r i xs w.a w.b w.c w.d
  c := w.b
  d := w.c

/-- The rotating form of Compress (R110). -/
def compressRotating (h : Chain) (block : List Byte) : Chain :=
  let xs := messageWords block
  let round (r : Round) (w : Chain) := (List.range 16).foldl (rotatingStep r xs) w
  h.add (round .r3 (round .r2 (round .r1 h)))

/-! ### The command -/

/-- PHASE in {EMPTY, ACCUM}: the phases in which UPDATE, FINALIZE and COMPRESS are legal (42_stream.md R125,
60_exceptions.md R155). -/
def Phase.isActive : Phase → Bool
  | .uninit => false
  | .empty => true
  | .accum => true
  | .final => false

/-- COMPRESS (41_compression.md R114): H <- Compress(H, the 64 bytes at ADDR). -/
def execCompress (s : State) : Out :=
  s.onCommand fun e =>
    if e.phase.isActive then
      match s.sourceBytes e 64 with
      | none => s.raise e .range
      | some block => .next (s.withEngine { e with h := compress e.h block })
    else s.raise e .usage

end Sys2Proof.Machine
end

