-- ==== Sys2Proof/Machine/Stream.lean ====
section
/-! DEFINITION. The streaming engine (42_stream.md): INIT, UPDATE and FINALIZE. -/

namespace Sys2Proof.Machine

/-- IV (42_stream.md R126). -/
def iv : Chain where
  a := 0x67452301
  b := 0xEFCDAB89
  c := 0x98BADCFE
  d := 0x10325476

/-! ### Absorb -/

/-- BUF[index .. index + |data|) <- data, the other bytes as they are (42_stream.md R128). -/
@[irreducible] def splice (buf : Vector Byte 64) (index : Nat) (data : List Byte) : Vector Byte 64 :=
  Vector.ofFn fun j => if index ≤ j.val then data.getD (j.val - index) buf[j] else buf[j]

/-- H <- Compress(H, block) for the first k blocks of 64 bytes of the data: the loop of 42_stream.md R128. -/
def compressBlocks : Nat → Chain → List Byte → Chain
  | 0, h, _ => h
  | k + 1, h, data => compressBlocks k (compress h (data.take 64)) (data.drop 64)

/-- The number of bytes buffered: COUNT mod 64 (10_state.md R28). -/
def Engine.index (e : Engine) : Nat := e.count.toNat % 64

/-- The second part of Absorb (42_stream.md R128): the complete blocks of `data` straight from the input, then its last
bytes, fewer than 64, to BUF[index ..). COUNT is the caller's matter. -/
def Engine.absorbFrom (e : Engine) (index : Nat) (data : List Byte) : Engine :=
  let k := data.length / 64
  { e with
    h := compressBlocks k e.h data
    buf := splice e.buf index (data.drop (64 * k)) }

/-- `Absorb(data)` (42_stream.md R128). -/
@[irreducible] def Engine.absorb (e : Engine) (data : List Byte) : Engine :=
  let index := e.index
  let toFill := 64 - index
  let counted := { e with count := e.count + BitVec.ofNat 64 data.length }
  if index ≠ 0 ∧ toFill ≤ data.length then
    let filled := splice e.buf index (data.take toFill)
    { counted with buf := filled, h := compress e.h filled.toList }.absorbFrom 0 (data.drop toFill)
  else counted.absorbFrom index data

/-! ### Padding, length and digest -/

/-- padlen (42_stream.md R131). -/
def padLen (index : Nat) : Nat := if index < 56 then 56 - index else 120 - index

/-- The pad (42_stream.md R131): one 0x80 byte, then zeros. -/
def pad (index : Nat) : List Byte := 0x80 :: List.replicate (padLen index - 1) 0x00

/-- The length suffix (42_stream.md R132): 8 bytes, little-endian, of COUNT << 3, COUNT as it stands BEFORE the pad. -/
def lengthSuffix (count : Dword) : List Byte := le64bytes (count <<< 3)

/-- The digest (42_stream.md R133): the words A, B, C, D, each little-endian. -/
def digestBytes (h : Chain) : List Byte := le32bytes h.a ++ le32bytes h.b ++ le32bytes h.c ++ le32bytes h.d

/-- The context part of FINALIZE (42_stream.md R134): absorb the pad, then the length suffix, both made from COUNT as it
was before, then PHASE <- FINAL. -/
@[irreducible] def Engine.close (e : Engine) : Engine :=
  { (e.absorb (pad e.index)).absorb (lengthSuffix e.count) with phase := .final }

/-! ### The commands -/

/-- INIT (42_stream.md R127): legal in every phase; BUF's bytes are left as they are. -/
def execInit (s : State) : Out :=
  s.onCommand fun e => .next (s.withEngine { e with h := iv, count := 0, phase := .empty })

/-- UPDATE (42_stream.md R129): absorb the LEN bytes at ADDR. -/
def execUpdate (s : State) : Out :=
  s.onCommand fun e =>
    if e.phase.isActive then
      match s.sourceBytes e e.len.toNat with
      | none => s.raise e .range
      | some data => .next (s.withEngine { e.absorb data with phase := .accum })
    else s.raise e .usage

/-- FINALIZE (42_stream.md R134): close the context and write the digest to the 16 bytes at ADDR. -/
def execFinalize (s : State) : Out :=
  s.onCommand fun e =>
    if e.phase.isActive then
      if inRange s.cfg.memSize e.addr.toNat 16 then
        .next ((s.storeAtAddr e (digestBytes e.close.h)).withEngine e.close)
      else s.raise e .range
    else s.raise e .usage

/-! ### The whole-message function of R140 -/

/-- The padded message P of 42_stream.md R140: m, the pad for |m| mod 64, and the low 64 bits of 8 * |m|. -/
def paddedMessage (m : List Byte) : List Byte :=
  m ++ pad (m.length % 64) ++ le64bytes (BitVec.ofNat 64 (8 * m.length))

/-- `MD4(m)` (42_stream.md R140): Compress over all |P| / 64 blocks of P from IV, serialised by R133. No command calls
it; it is what statements compare FINALIZE with. -/
def md4 (m : List Byte) : List Byte :=
  digestBytes (compressBlocks ((paddedMessage m).length / 64) iv (paddedMessage m))

end Sys2Proof.Machine
end

