-- ==== Sys2Proof/Machine/Dispatch.lean ====
section
/-! DEFINITION. One arm per command. -/

namespace Sys2Proof.Machine

/-- What a command does on the selected instance: 30_encoding.md R66, one meaning for each row. -/
def exec (i : Instr) (s : State) : Host.Outcome State Fault Refusal :=
  match i with
  | .init => Sys2Proof.Machine.execInit s
  | .update => Sys2Proof.Machine.execUpdate s
  | .finalize => Sys2Proof.Machine.execFinalize s
  | .compress => Sys2Proof.Machine.execCompress s
  | .ldLe32 => Sys2Proof.Machine.execLdLe32 s
  | .ldBe32 => Sys2Proof.Machine.execLdBe32 s
  | .ldLe64 => Sys2Proof.Machine.execLdLe64 s
  | .ldBe64 => Sys2Proof.Machine.execLdBe64 s
  | .stLe32 => Sys2Proof.Machine.execStLe32 s
  | .stBe32 => Sys2Proof.Machine.execStBe32 s
  | .stLe64 => Sys2Proof.Machine.execStLe64 s
  | .stBe64 => Sys2Proof.Machine.execStBe64 s
  | .misaligned => Sys2Proof.Machine.execMisaligned s

end Sys2Proof.Machine
end

