-- ==== Sys2Proof/Machine/Flags.lean ====
section
/-! DEFINITION. The engine has no flags and no condition codes (10_state.md R42). This file holds its status word, STATUS
(R34), and the numbers of PHASE (R29) and FAULT_CODE (60_exceptions.md R151) in it. -/

namespace Sys2Proof.Machine

/-- The value of PHASE (10_state.md R29). -/
def Phase.code : Phase → BitVec 2
  | .uninit => 0
  | .empty => 1
  | .accum => 2
  | .final => 3

/-- The value of FAULT_CODE (60_exceptions.md R151). -/
def FaultCode.code : FaultCode → BitVec 8
  | .none => 0x00
  | .illegal => 0x01
  | .usage => 0x02
  | .alignArg => 0x03
  | .range => 0x04

/-- STATUS = PHASE | (HALTED << 2) | (FAULT_CODE << 8) (10_state.md R34). -/
def Engine.status (e : Engine) : Dword :=
  e.phase.code.setWidth 64 ||| ((BitVec.ofBool e.halted).setWidth 64 <<< 2) ||| (e.faultCode.code.setWidth 64 <<< 8)

end Sys2Proof.Machine
end

