-- ==== Sys2Proof/Machine/Registers.lean ====
section
/-! DEFINITION. The host register block of an instance (10_state.md R33 to R40): the register map, what a read returns, and
what a write to an operand register does. A write to CMD issues a command: Machine/Bus.lean. -/

namespace Sys2Proof.Machine

/-- The offset of a register in its instance's block (10_state.md R33). -/
def regOffset : Reg → Nat
  | .cmd => 0x00
  | .addr => 0x08
  | .len => 0x10
  | .val => 0x18
  | .result => 0x20
  | .status => 0x28
  | .count => 0x30
  | .h01 => 0x38
  | .h23 => 0x40

/-- The register at an offset; none at a reserved offset (10_state.md R33, R38). -/
def regAt (off : Nat) : Option Reg :=
  if off = 0x00 then some .cmd
  else if off = 0x08 then some .addr
  else if off = 0x10 then some .len
  else if off = 0x18 then some .val
  else if off = 0x20 then some .result
  else if off = 0x28 then some .status
  else if off = 0x30 then some .count
  else if off = 0x38 then some .h01
  else if off = 0x40 then some .h23
  else none

/-- Two chaining words as one register value (10_state.md R36): the first word in the low half. -/
def wordPair (lo hi : Word) : Dword := lo.setWidth 64 ||| (hi.setWidth 64 <<< 32)

/-- What a host read of a register returns (10_state.md R40); CMD reads as 0 (R33, R35). -/
def Engine.readReg (e : Engine) : Reg → Dword
  | .cmd => 0
  | .addr => e.addr
  | .len => e.len
  | .val => e.val
  | .result => e.result
  | .status => e.status
  | .count => e.count
  | .h01 => wordPair e.h.a e.h.b
  | .h23 => wordPair e.h.c e.h.d

/-- What a host read at an offset of the block returns: a reserved offset reads as 0 (10_state.md R38). -/
def Engine.readOffset (e : Engine) (off : Nat) : Dword :=
  match regAt off with
  | some r => e.readReg r
  | none => 0

/-- What a host write at an offset does to the registers: ADDR, LEN and VAL take the value, whether HALTED is 0 or 1
(10_state.md R39); read-only registers and reserved offsets ignore it (R38). CMD is not written here. -/
def Engine.writeOffset (e : Engine) (off : Nat) (v : Dword) : Engine :=
  match regAt off with
  | some .addr => { e with addr := v }
  | some .len => { e with len := v }
  | some .val => { e with val := v }
  | some .cmd => e
  | some .result => e
  | some .status => e
  | some .count => e
  | some .h01 => e
  | some .h23 => e
  | none => e

end Sys2Proof.Machine
end

