-- ==== Sys2Proof/Machine/Bus.lean ====
section
/-! DEFINITION. Everything a host operation does (70_reset_and_hazards.md R187): register accesses by offset and by bus
address, CMD writes alone and to several instances at once (20_memory.md R60), reset (R175), and the host's own loads and
stores. -/

namespace Sys2Proof.Machine

/-! ### CMD -/

/-- A write of `v` to CMD of the selected instance (10_state.md R35): ignored while halted; else decoded, and an illegal
value raises ILLEGAL (60_exceptions.md R154). -/
def issue (v : Dword) (s : State) : Out :=
  s.onCommand fun e =>
    match decode v with
    | .ok i => exec i s
    | .error _ => s.raise e .illegal

/-! ### Several instances at once (20_memory.md R60) -/

/-- The width in bytes of a command's access to host memory (20_memory.md R46); 0 where it accesses none. -/
def memBytes (e : Engine) : Instr → Nat
  | .init => 0
  | .update => e.len.toNat
  | .finalize => 16
  | .compress => 64
  | .ldLe32 => 4
  | .ldBe32 => 4
  | .ldLe64 => 8
  | .ldBe64 => 8
  | .stLe32 => 4
  | .stBe32 => 4
  | .stLe64 => 8
  | .stBe64 => 8
  | .misaligned => 0

/-- The commands that write host memory (20_memory.md R46, R58): FINALIZE and ST_*. -/
def writesMemory : Instr → Bool
  | .finalize | .stLe32 | .stBe32 | .stLe64 | .stBe64 => true
  | .init | .update | .compress | .ldLe32 | .ldBe32 | .ldLe64 | .ldBe64 | .misaligned => false

/-- The commands that fault USAGE outside EMPTY and ACCUM (60_exceptions.md R155). -/
def needsOpenPhase : Instr → Bool
  | .update | .finalize | .compress => true
  | .init | .ldLe32 | .ldBe32 | .ldLe64 | .ldBe64 | .stLe32 | .stBe32 | .stLe64 | .stBe64 | .misaligned => false

/-- The fault that a decoded command raises: 60_exceptions.md R158, in the order USAGE, ALIGN_ARG, RANGE (R159). -/
def faultOf (memSize : Nat) (e : Engine) (i : Instr) : Option FaultCode :=
  if needsOpenPhase i && !e.phase.isActive then some .usage
  else if i = .misaligned ∧ isPow2 e.len = false then some .alignArg
  else if inRange memSize e.addr.toNat (memBytes e i) then none
  else some .range

/-- The bytes of host memory a command accesses. -/
structure Footprint where
  lo : Nat
  bytes : Nat
  writes : Bool
  deriving DecidableEq, Repr

/-- What a CMD write accesses: nothing where it is ignored, illegal, or raises a fault (60_exceptions.md R152, R153), for
then no command accesses memory; else the range of 20_memory.md R46. -/
def footprint (memSize : Nat) (e : Engine) (v : Dword) : Option Footprint :=
  if e.halted then none
  else
    match decode v with
    | .error _ => none
    | .ok i =>
      match faultOf memSize e i with
      | some _ => none
      | none => some { lo := e.addr.toNat, bytes := memBytes e i, writes := writesMemory i }

/-- Two ranges share a byte and at least one of them is written (20_memory.md R60). -/
def Footprint.conflicts (p q : Footprint) : Bool :=
  (p.writes || q.writes) && decide (max p.lo q.lo < min (p.lo + p.bytes) (q.lo + q.bytes))

/-- The footprint of a CMD write to instance `c.1`. -/
def State.footprintOf (s : State) (c : Nat × Dword) : Option Footprint :=
  match s.engines[c.1]? with
  | none => none
  | some e => footprint s.cfg.memSize e c.2

/-- Two CMD writes race (20_memory.md R60). -/
def State.races (s : State) (c d : Nat × Dword) : Bool :=
  match s.footprintOf c, s.footprintOf d with
  | some p, some q => p.conflicts q
  | _, _ => false

/-- No two of the CMD writes race. -/
def State.raceFree (s : State) : List (Nat × Dword) → Bool
  | [] => true
  | c :: cmds => cmds.all (fun d => !s.races c d) && s.raceFree cmds

/-- The CMD writes one after another, each command atomic (20_memory.md R56, R60), in the order listed. -/
def issueEach : List (Nat × Dword) → State → Out
  | [], s => .next s
  | c :: cmds, s => andThen (issue c.2 { s with sel := c.1 }) (issueEach cmds)

/-- CMD writes to several instances at once (20_memory.md R60): refused where one instance is named twice (R16) or two
commands race; else they take effect one after another. The order is the list's, and makes no difference (assumption
log 7). The selection is left as it was. -/
def issueTogether (cmds : List (Nat × Dword)) (s : State) : Out :=
  if ∃ c ∈ cmds, s.engines.length ≤ c.1 then .refused .noSuchInstance
  else if ¬ (cmds.map (·.1)).Nodup then .refused .sameInstanceTwice
  else if s.raceFree cmds then andThen (issueEach cmds s) fun t => .next { t with sel := s.sel }
  else .refused .race

/-! ### Register accesses -/

/-- An access to a whole register of an instance that exists, or the reason it is refused (10_state.md R38, assumption
log 9); the instance becomes the selected one. -/
def onAccess (a : Access) (k : State → Engine → Out) (s : State) : Out :=
  match s.engines[a.inst]? with
  | none => .refused .noSuchInstance
  | some e =>
    if Config.blockSize ≤ a.off then .refused .outsideBlock
    else if a.bytes = 8 ∧ a.off % 8 = 0 then k { s with sel := a.inst } e
    else .refused .partialAccess

/-- A host register write (10_state.md R35, R38, R39): CMD issues a command, ADDR, LEN and VAL take the value. -/
def hostWrite (a : Access) (v : Dword) (s : State) : Out :=
  onAccess a (fun t e =>
    if regAt a.off = some .cmd then issue v t else .next (t.withEngine (e.writeOffset a.off v))) s

/-- A host register read (10_state.md R40, R187): the value is appended to the observations, nothing else changes. -/
def hostRead (a : Access) (s : State) : Out :=
  onAccess a (fun t e => .next { t with obs := t.obs ++ [e.readOffset a.off] }) s

/-- The instance (numbered from `i`) and the offset that a bus address reaches, given the base addresses. -/
def locateFrom : List Nat → Nat → Nat → Option (Nat × Nat)
  | [], _, _ => none
  | base :: bases, i, busAddr =>
    if base ≤ busAddr ∧ busAddr < base + Config.blockSize then some (i, busAddr - base)
    else locateFrom bases (i + 1) busAddr

/-- The access that a bus address means: the block at ENGINE_BASE[i] (10_state.md R33, 60_exceptions.md R169). -/
def busAccess (c : Config) (busAddr bytes : Nat) : Option Access :=
  match locateFrom c.engineBase 0 busAddr with
  | none => none
  | some (i, off) => some { inst := i, off := off, bytes := bytes }

/-- The bus address of a register access (10_state.md R33): ENGINE_BASE[i] + offset. -/
def busAddress (c : Config) (inst off : Nat) : Option Nat :=
  match c.engineBase[inst]? with
  | none => none
  | some base => some (base + off)

/-! ### Host operations -/

/-- Reset of an instance (70_reset_and_hazards.md R175): every piece of its state at the value of 10_state.md R41; host
memory and the other instances are as they were. -/
def resetInstance (i : Nat) (s : State) : Out :=
  if i < s.engines.length then .next { s with engines := s.engines.set i Engine.reset }
  else .refused .noSuchInstance

/-- The host's own store to host memory (20_memory.md R57). -/
def hostStore (addr : Nat) (data : List Byte) (s : State) : Out :=
  if inRange s.cfg.memSize addr data.length then .next { s with mem := s.mem.write addr data }
  else .fault .hostAddressOutOfMemory

/-- The host's own load of a byte: the byte, as a u64, is appended to the observations. -/
def hostLoad (addr : Nat) (s : State) : Out :=
  if inRange s.cfg.memSize addr 1 then .next { s with obs := s.obs ++ [(s.mem.readByte addr).setWidth 64] }
  else .fault .hostAddressOutOfMemory

/-- One host operation (70_reset_and_hazards.md R187). -/
def perform (op : HostOp) (s : State) : Out :=
  match op with
  | .write a v => hostWrite a v s
  | .read a => hostRead a s
  | .busWrite busAddr bytes v =>
    match busAccess s.cfg busAddr bytes with
    | none => .refused .noRegisterBlock
    | some a => hostWrite a v s
  | .busRead busAddr bytes =>
    match busAccess s.cfg busAddr bytes with
    | none => .refused .noRegisterBlock
    | some a => hostRead a s
  | .issueTogether cmds => issueTogether cmds s
  | .reset i => resetInstance i s
  | .hostStore addr data => hostStore addr data s
  | .hostLoad addr => hostLoad addr s

/-- The next host operation leaves the program, and the position advances by exactly one (10_state.md R21). -/
def State.advance (s : State) (rest : List HostOp) : State := { s with prog := rest, pos := s.pos + 1 }

/-- The host operation that issues a command to an instance (30_encoding.md R74): a write of `v` to its CMD. -/
def cmdWrite (inst : Nat) (v : Dword) : HostOp := .write { inst := inst, off := regOffset .cmd, bytes := 8 } v

/-- The value a table word of `nbits` bits is written to CMD with: the bits at and above `nbits` are 0. -/
def tableWordValue (nbits w : Nat) : Dword := BitVec.ofNat 64 (w % 2 ^ nbits)

end Sys2Proof.Machine
end

