-- ==== Sys2Proof/Machine/Step.lean ====
section
/-! DEFINITION. One step of a run (70_reset_and_hazards.md R187): the next host operation. The engine fetches nothing
(10_state.md R21): a command reaches it as a CMD write of the host program. -/

namespace Sys2Proof.Machine

/-- A step performs the next host operation. With none left the run has ended (R188), and the engine "is idle, holds all its
state, and does nothing" (60_exceptions.md R171). -/
def step (s : State) : Host.Outcome State Fault Refusal :=
  match s.prog with
  | [] => .next s
  | op :: rest => perform op (s.advance rest)

/-- The state in which the next host operation writes a table word to CMD of the selected instance, before whatever program
`s` holds. A program is always loaded from outside the machine (assumption log 2); this stands for that load. -/
def State.withFetchWord (s : State) (nbits w : Nat) : State :=
  { s with prog := cmdWrite s.sel (tableWordValue nbits w) :: s.prog }

end Sys2Proof.Machine
end

