-- ==== Sys2Proof/Machine/Asm.lean ====
section
/-! DEFINITION. The assembler (30_encoding.md R74 to R77): what a line means as host operations, the text of a line, and the
bus listing of a host operation. The machine never reads text; this is the map from the spec's programs to `State.prog`. -/

namespace Sys2Proof.Machine

/-! ### Meaning -/

/-- The exact expansions of the pseudo-instructions (R76); a line of R74 expands to itself. -/
def expand : AsmLine → List AsmLine
  | .wr r imm => [.wr r imm]
  | .rd r => [.rd r]
  | .command i => [.command i]
  | .update a n => [.wr .addr a, .wr .len n, .command .update]
  | .finalize a => [.wr .addr a, .command .finalize]
  | .compress a => [.wr .addr a, .command .compress]
  | .ld e w a => [.wr .addr a, .command (byteOrderInstr false w e)]
  | .st e w a v => [.wr .addr a, .wr .val v, .command (byteOrderInstr true w e)]
  | .misaligned a k => [.wr .addr a, .wr .len k, .command .misaligned]
  | .md4 a n d =>
    [.command .init, .wr .addr a, .wr .len n, .command .update, .wr .addr d, .command .finalize]

/-- The host operation of a line of R74 on an instance; none for a pseudo-instruction, and none for a `wr` of a register
that R74 does not allow. -/
def lineOp (inst : Nat) : AsmLine → Option HostOp
  | .wr r imm => if r.writable then some (.write { inst := inst, off := regOffset r, bytes := 8 } imm) else none
  | .rd r => some (.read { inst := inst, off := regOffset r, bytes := 8 })
  | .command i => some (cmdWrite inst (encodeCmd i))
  | .update _ _ => none
  | .finalize _ => none
  | .compress _ => none
  | .ld _ _ _ => none
  | .st _ _ _ _ => none
  | .misaligned _ _ => none
  | .md4 _ _ _ => none

/-- The host program of an assembler program on one instance (R74, R76). -/
def assemble (inst : Nat) (lines : List AsmLine) : Option (List HostOp) :=
  (lines.flatMap expand).mapM (lineOp inst)

/-! ### Text (R75) -/

/-- White space between the parts of a line. -/
def isBlankChar (c : Char) : Bool := c = ' ' || c = '\t' || c = '\r'

/-- A text without the white space at its ends. -/
def trimChars (s : List Char) : List Char :=
  ((s.dropWhile isBlankChar).reverse.dropWhile isBlankChar).reverse

/-- A text cut at every separator. -/
def splitChars (sep : Char) : List Char → List (List Char)
  | [] => [[]]
  | c :: s =>
    match splitChars sep s with
    | [] => [[c]]
    | p :: ps => if c = sep then [] :: p :: ps else (c :: p) :: ps

/-- A line without its comment: "`;` starts a comment that runs to the end of the line" (R75). -/
def uncomment (s : List Char) : List Char := s.takeWhile (· ≠ ';')

/-- A line without its label (R75): a label `name:` stands at the start of the line and only names a position. -/
def unlabel (s : List Char) : Option (List Char) :=
  match splitChars ':' s with
  | [body] => some body
  | [label, body] =>
    let name := trimChars label
    if name ≠ [] ∧ name.all (fun c => !isBlankChar c) then some body else none
  | _ => none

/-- The value of a digit in base 16. -/
def hexDigitValue (c : Char) : Option Nat :=
  if '0' ≤ c ∧ c ≤ '9' then some (c.toNat - '0'.toNat)
  else if 'a' ≤ c ∧ c ≤ 'f' then some (c.toNat - 'a'.toNat + 10)
  else if 'A' ≤ c ∧ c ≤ 'F' then some (c.toNat - 'A'.toNat + 10)
  else none

/-- A number in a base, digit by digit. -/
def digitsValue (base : Nat) : List Char → Nat → Option Nat
  | [], acc => some acc
  | c :: s, acc =>
    match hexDigitValue c with
    | some d => if d < base then digitsValue base s (base * acc + d) else none
    | none => none

/-- `imm` (R75): "decimal or hex with a `0x` prefix and must fit in 64 bits". -/
def parseImm (s : List Char) : Option Dword :=
  let n :=
    match s with
    | [] => none
    | ['0', 'x'] => none
    | '0' :: 'x' :: digits => digitsValue 16 digits 0
    | digits => digitsValue 10 digits 0
  match n with
  | some k => if k < 2 ^ 64 then some (BitVec.ofNat 64 k) else none
  | none => none

/-- A name in lower case: "mnemonics and register names are case-insensitive" (R75). -/
def lowerName (s : List Char) : String := String.ofList (s.map Char.toLower)

/-- A register by its name in the table of 10_state.md R33. -/
def parseReg (s : List Char) : Option Reg :=
  let n := lowerName s
  if n = "cmd" then some .cmd
  else if n = "addr" then some .addr
  else if n = "len" then some .len
  else if n = "val" then some .val
  else if n = "result" then some .result
  else if n = "status" then some .status
  else if n = "count" then some .count
  else if n = "h01" then some .h01
  else if n = "h23" then some .h23
  else none

/-- A command by its mnemonic (30_encoding.md R66). -/
def parseMnemonic (n : String) : Option Instr :=
  if n = "init" then some .init
  else if n = "update" then some .update
  else if n = "finalize" then some .finalize
  else if n = "compress" then some .compress
  else if n = "ld_le32" then some .ldLe32
  else if n = "ld_be32" then some .ldBe32
  else if n = "ld_le64" then some .ldLe64
  else if n = "ld_be64" then some .ldBe64
  else if n = "st_le32" then some .stLe32
  else if n = "st_be32" then some .stBe32
  else if n = "st_le64" then some .stLe64
  else if n = "st_be64" then some .stBe64
  else if n = "misaligned" then some .misaligned
  else none

/-- A pseudo-instruction with one operand (R76). -/
def parsePseudo1 (n : String) (a : Dword) : Option AsmLine :=
  if n = "finalize" then some (.finalize a)
  else if n = "compress" then some (.compress a)
  else if n = "ld.le32" then some (.ld .little .w32 a)
  else if n = "ld.be32" then some (.ld .big .w32 a)
  else if n = "ld.le64" then some (.ld .little .w64 a)
  else if n = "ld.be64" then some (.ld .big .w64 a)
  else none

/-- A pseudo-instruction with two operands (R76). -/
def parsePseudo2 (n : String) (a b : Dword) : Option AsmLine :=
  if n = "update" then some (.update a b)
  else if n = "misaligned" then some (.misaligned a b)
  else if n = "st.le32" then some (.st .little .w32 a b)
  else if n = "st.be32" then some (.st .big .w32 a b)
  else if n = "st.le64" then some (.st .little .w64 a b)
  else if n = "st.be64" then some (.st .big .w64 a b)
  else none

/-- A line from its first word and its operands. -/
def parseParts (name : List Char) (operands : List (List Char)) : Option AsmLine :=
  let n := lowerName name
  match operands with
  | [] => (parseMnemonic n).map .command
  | [x] =>
    if n = "rd" then (parseReg x).map .rd
    else
      match parseImm x with
      | some a => parsePseudo1 n a
      | none => none
  | [x, y] =>
    if n = "wr" then
      match parseReg x, parseImm y with
      | some r, some v => if r.writable then some (.wr r v) else none
      | _, _ => none
    else
      match parseImm x, parseImm y with
      | some a, some b => parsePseudo2 n a b
      | _, _ => none
  | [x, y, z] =>
    match parseImm x, parseImm y, parseImm z with
    | some a, some b, some d => if n = "md4" then some (.md4 a b d) else none
    | _, _, _ => none
  | _ => none

/-- One line of text: no line of program (blank, a comment, a label alone), or one; none where it is no line of R74 to
R76. Operands are separated by commas. -/
def parseLine (s : List Char) : Option (Option AsmLine) :=
  match unlabel (uncomment s) with
  | none => none
  | some body =>
    let body := trimChars body
    let name := body.takeWhile (fun c => !isBlankChar c)
    let rest := trimChars (body.drop name.length)
    if body = [] then some none
    else
      let operands := if rest = [] then [] else (splitChars ',' rest).map trimChars
      match parseParts name operands with
      | some l => some (some l)
      | none => none

/-- A program of text, one line of R74 to R76 on each line. -/
def parseProgram (text : List Char) : Option (List AsmLine) :=
  match (splitChars '\n' text).mapM parseLine with
  | some ls => some (ls.filterMap id)
  | none => none

/-! ### The bus listing (R77) -/

/-- A digit in base 16. -/
def hexDigit (d : Nat) : Char :=
  ['0', '1', '2', '3', '4', '5', '6', '7', '8', '9', 'A', 'B', 'C', 'D', 'E', 'F'].getD d '?'

/-- The low `width` digits of a number in base 16. -/
def hexFixed : Nat → Nat → List Char
  | 0, _ => []
  | width + 1, n => hexFixed width (n / 16) ++ [hexDigit (n % 16)]

/-- A u64 in hex with the `0x` prefix: at least `least` digits and no leading zero above them. -/
def hexText (least : Nat) (v : Dword) : List Char :=
  let digits := hexFixed 16 v.toNat
  let lead := (digits.takeWhile (· = '0')).length
  ['0', 'x'] ++ digits.drop (min lead (16 - least))

/-- The listing of a register access (R77): `W off=value` and `R off`; the value of a CMD write has the eight digits of
a command word. -/
def listing : HostOp → Option (List Char)
  | .write a v =>
    some (['W', ' '] ++ hexText 2 (BitVec.ofNat 64 a.off) ++ ['=']
      ++ hexText (if regAt a.off = some .cmd then 8 else 1) v)
  | .read a => some (['R', ' '] ++ hexText 2 (BitVec.ofNat 64 a.off))
  | .busWrite _ _ _ => none
  | .busRead _ _ => none
  | .issueTogether _ => none
  | .reset _ => none
  | .hostStore _ _ => none
  | .hostLoad _ => none

end Sys2Proof.Machine
end

