-- ==== Sys2Proof/Safety.lean ====
section
/-! DEFINITION. The terms claims are stated in: the end of a run and what is observed of it (70_reset_and_hazards.md R188),
the invariant every step keeps, and when two states differ in nothing that can be observed (10_state.md R28). -/

namespace Sys2Proof.Machine

/-! ### The selected instance -/

/-- The selected instance is `e`, and it is not halted: the clean-entry premise of R186, under which a command runs. -/
abbrev State.Running (s : State) (e : Engine) : Prop := s.engines[s.sel]? = some e ∧ e.halted = false

/-- The machine after a command that faults with `code` (60_exceptions.md R152): HALTED and FAULT_CODE of the selected
instance are written, and nothing else. -/
abbrev takesFault (s : State) (e : Engine) (code : FaultCode) : Out :=
  .next { s with engines := s.engines.set s.sel { e with halted := true, faultCode := code } }

/-! ### The end of a run (R188) -/

/-- The host program has no operation left. -/
def State.ended (s : State) : Bool := s.prog.isEmpty

/-- Some instance is halted. -/
def State.anyHalted (s : State) : Bool := s.engines.any (·.halted)

/-- The run ended successfully: no operation left, and no instance halted (R188; assumption log 13 for several). -/
def State.succeeded (s : State) : Bool := s.ended && !s.anyHalted

/-- The run ended faulted (R188). -/
def State.faulted (s : State) : Bool := s.ended && s.anyHalted

/-- What the registers of an instance read as, in the order of 10_state.md R33. -/
def Engine.registerValues (e : Engine) : List Dword :=
  [e.readReg .cmd, e.readReg .addr, e.readReg .len, e.readReg .val, e.readReg .result, e.readReg .status,
    e.readReg .count, e.readReg .h01, e.readReg .h23]

/-- The observation of a run (R188): "the final host memory, the final register values and the list of read results". -/
structure Observation where
  mem : Memory
  registers : List (List Dword)
  reads : List Dword
  deriving DecidableEq, Repr

/-- The observation of a state. -/
def State.observe (s : State) : Observation where
  mem := s.mem
  registers := s.engines.map Engine.registerValues
  reads := s.obs

/-! ### What cannot be observed -/

/-- The bytes buffered: BUF[0 .. COUNT mod 64), in stream order (10_state.md R28). -/
def Engine.buffered (e : Engine) : List Byte := e.buf.toList.take e.index

/-- The instance has absorbed the message m since IV, and nothing else: H has every complete block of m, BUF the rest, COUNT
the length (42_stream.md R128, 10_state.md R28). -/
abbrev Engine.Holds (e : Engine) (m : List Byte) : Prop :=
  e.h = compressBlocks (m.length / 64) iv m ∧ e.buffered = m.drop (64 * (m.length / 64)) ∧
    e.count = BitVec.ofNat 64 m.length

/-- Two instances that differ in nothing but the BUF bytes at and above COUNT mod 64 (10_state.md R28, R130). -/
abbrev Engine.sameButStale (e e' : Engine) : Prop :=
  e.buffered = e'.buffered ∧ { e with buf := e'.buf } = e'

/-- Two machines that differ in nothing but such bytes. -/
abbrev State.sameButStale (s s' : State) : Prop :=
  List.Forall₂ Engine.sameButStale s.engines s'.engines ∧ { s with engines := s'.engines } = s'

/-! ### The invariant -/

/-- What every reachable instance satisfies:
FAULT_CODE is NONE exactly while HALTED = 0 (10_state.md R31, R34);
in UNINIT the context is as reset left it (R41, 42_stream.md R137);
in EMPTY no byte has been counted (R29, R127); in FINAL no byte is buffered (42_stream.md R135). -/
abbrev Engine.Inv (e : Engine) : Prop :=
  (e.halted = false ↔ e.faultCode = .none) ∧
    (e.phase = .uninit →
      e.h = Engine.reset.h ∧ e.buf = Engine.reset.buf ∧ e.count = Engine.reset.count) ∧
    (e.phase = .empty → e.count = 0) ∧
    (e.phase = .final → e.count.toNat % 64 = 0)

/-- What every reachable state satisfies: the parameters are within R7's limits, there are N_INST instances, `sel` names one,
each satisfies `Engine.Inv`, and host memory is in canonical form with every listed address below MEM_SIZE (20_memory.md
R45). -/
abbrev State.Inv (s : State) : Prop :=
  s.cfg.wf ∧ s.engines.length = s.cfg.nInst ∧ s.sel < s.engines.length ∧
    (∀ e ∈ s.engines, e.Inv) ∧
    s.mem.wf ∧ ∀ p ∈ s.mem, p.1 < s.cfg.memSize

end Sys2Proof.Machine
end

