-- ==== Sys2Proof/Certificates/Slice0/Obligations.lean ====
section
/-! DEFINITION. The statements for the provers. `s.Running e` is: the selected instance is `e` and HALTED = 0.
`takesFault s e code` is the state change of 60_exceptions.md R152. Numbers are written out as the spec writes them. -/

open Sys2Proof Sys2Proof.Machine

/-! ### Encoding -/

/-- The opcode map of 30_encoding.md R66: a value written to CMD is a command exactly when it is one of the 13 words. -/
def Obligations.DecodeIsTheOpcodeMap : Prop :=
  ∀ (v : Dword) (i : Instr), decode v = .ok i ↔ (v.toNat, i) ∈
    [(0x00000001, Instr.init), (0x00000002, .update), (0x00000003, .finalize), (0x00000004, .compress),
      (0x00000010, .ldLe32), (0x00000011, .ldBe32), (0x00000012, .ldLe64), (0x00000013, .ldBe64),
      (0x00000014, .stLe32), (0x00000015, .stBe32), (0x00000016, .stLe64), (0x00000017, .stBe64),
      (0x00000018, .misaligned)]

/-- Decode and encode agree, both ways: every command is read back from its word, and no other value reads as it. -/
def Obligations.DecodeEncodeAgree : Prop :=
  (∀ i : Instr, decode (encodeCmd i) = .ok i) ∧
    ∀ (v : Dword) (i : Instr), decode v = .ok i → v = encodeCmd i

/-- A few words of R66, as the host's table numbers their bits. -/
def Obligations.SampleWordsDecode : Prop :=
  decodeTableWord 32 0x00000002 = some .update ∧ decodeTableWord 32 0x00000004 = some .compress ∧
    decodeTableWord 32 0x00000013 = some .ldBe64 ∧ decodeTableWord 32 0x00000014 = some .stLe32 ∧
    decodeTableWord 32 0x00000018 = some .misaligned ∧ decodeTableWord 32 0x00000102 = none

/-- The sub-fields of 30_encoding.md R67: OPC = 0x10 | (S << 2) | (W << 1) | E selects the load or store of that width and
order. -/
def Obligations.ByteOrderOpcodeSubfields : Prop :=
  ∀ (store : Bool) (w : Width) (e : Order),
    (opcodeOf (byteOrderInstr store w e)).toNat =
        0x10 + 4 * (if store then 1 else 0) + 2 * (if w = .w64 then 1 else 0) + (if e = .big then 1 else 0) ∧
      instrOfOpcode (byteOrderOpcode store (w = .w64) (e = .big)) = some (byteOrderInstr store w e) ∧
      (writesMemory (byteOrderInstr store w e) = store) ∧
      ∀ x : Engine, memBytes x (byteOrderInstr store w e) = if w = .w64 then 8 else 4

/-- ILLEGAL (60_exceptions.md R154, 30_encoding.md R70): the three grounds, before every other fault; any other value is
the command it decodes to. -/
def Obligations.IllegalWordFaults : Prop :=
  ∀ (s : State) (e : Engine) (v : Dword), s.Running e →
    let illegal := v.toNat / 2 ^ 32 ≠ 0 ∨ v.toNat / 2 ^ 8 % 2 ^ 24 ≠ 0 ∨
      v.toNat % 2 ^ 8 ∉ [0x01, 0x02, 0x03, 0x04, 0x10, 0x11, 0x12, 0x13, 0x14, 0x15, 0x16, 0x17, 0x18]
    (illegal → issue v s = takesFault s e .illegal) ∧
      (¬ illegal → ∃ i, decode v = .ok i ∧ issue v s = exec i s)

/-! ### Steps and the run -/

/-- A CMD write to an instance that exists runs the decoded command on that instance (10_state.md R35), and the program
moves on by one operation (R21). That the program and the selection stand in State is the model's choice (assumption log 1
and 6). -/
def Obligations.StepRunsDecodedCommand : Prop :=
  ∀ (s : State) (inst : Nat) (v : Dword) (rest : List HostOp) (e : Engine) (i : Instr),
    s.prog = .write { inst := inst, off := 0x00, bytes := 8 } v :: rest → s.engines[inst]? = some e →
    decode v = .ok i →
    step s = exec i { s with sel := inst, prog := rest, pos := s.pos + 1 }

/-- The position advances by exactly one with each host operation, and no command changes it (10_state.md R21); with no
operation left the machine is idle (60_exceptions.md R171); a step there is the model's choice (assumption log 1). -/
def Obligations.PositionAdvancesByOne : Prop :=
  ∀ (s t : State), step s = .next t →
    (∀ op rest, s.prog = op :: rest → t.prog = rest ∧ t.pos = s.pos + 1) ∧ (s.prog = [] → t = s)

/-- Every command completes (70_reset_and_hazards.md R185): on an instance that exists, exec always answers a next state. -/
def Obligations.EveryCommandCompletes : Prop :=
  ∀ (i : Instr) (s : State), s.sel < s.engines.length → ∃ t, exec i s = .next t

/-- Reset (10_state.md R41): the value of every piece of instance state, in `State.reset` and after a reset event; host
memory and the other instances are unchanged by the event. That the event is a host operation is the model's choice
(assumption log 12). -/
def Obligations.ResetSetsEveryRegister : Prop :=
  let isReset := fun e : Engine =>
    e.addr = 0 ∧ e.len = 0 ∧ e.val = 0 ∧ e.result = 0 ∧
      e.h.a = 0 ∧ e.h.b = 0 ∧ e.h.c = 0 ∧ e.h.d = 0 ∧ (∀ (k : Nat) (_ : k < 64), e.buf[k] = 0x00) ∧
      e.count = 0 ∧ e.phase.code = 0 ∧ e.halted = false ∧ e.faultCode.code = 0
  (∀ e ∈ State.reset.engines, isReset e) ∧
    ∀ (s : State) (i : Nat) (rest : List HostOp), i < s.engines.length → s.prog = .reset i :: rest →
      ∃ t e, step s = .next t ∧ t.engines[i]? = some e ∧ isReset e ∧
        (∀ j, j ≠ i → t.engines[j]? = s.engines[j]?) ∧ ∀ a, t.mem.readByte a = s.mem.readByte a

/-! ### Invariants -/

/-- The machine right after reset meets the invariant. -/
def Obligations.ResetMeetsInvariant : Prop := State.reset.Inv

/-- Every step keeps the invariant, from every state that meets it: host memory stays in canonical form within MEM_SIZE,
FAULT_CODE is NONE exactly while HALTED = 0 (10_state.md R31, R34), an instance in UNINIT is as reset left its context,
one in EMPTY has counted no byte, one in FINAL buffers none (42_stream.md R135). -/
def Obligations.StepKeepsInvariant : Prop :=
  ∀ s t : State, s.Inv → step s = .next t → t.Inv

/-! ### Faults -/

/-- The fault table of 60_exceptions.md R158 with the causes of R155 to R157: which commands fault, when, and with which
code (USAGE before RANGE); in every other case the command runs and the instance is not halted. -/
def Obligations.FaultsOfEachCommand : Prop :=
  ∀ (s : State) (e : Engine) (i : Instr), s.Running e →
    let usage := i ∈ [Instr.update, .finalize, .compress] ∧ (e.phase = .uninit ∨ e.phase = .final)
    let alignArg := i = .misaligned ∧ ¬ ∃ j, j < 64 ∧ e.len.toNat = 2 ^ j
    let range :=
      i = .update ∧ 0 < e.len.toNat ∧ s.cfg.memSize < e.addr.toNat + e.len.toNat ∨
      i = .finalize ∧ s.cfg.memSize < e.addr.toNat + 16 ∨
      i = .compress ∧ s.cfg.memSize < e.addr.toNat + 64 ∨
      i ∈ [Instr.ldLe32, .ldBe32, .stLe32, .stBe32] ∧ s.cfg.memSize < e.addr.toNat + 4 ∨
      i ∈ [Instr.ldLe64, .ldBe64, .stLe64, .stBe64] ∧ s.cfg.memSize < e.addr.toNat + 8
    (usage → exec i s = takesFault s e .usage) ∧
      (alignArg → exec i s = takesFault s e .alignArg) ∧
      (¬ usage → range → exec i s = takesFault s e .range) ∧
      (¬ usage → ¬ alignArg → ¬ range →
        ∃ t e', exec i s = .next t ∧ t.engines[s.sel]? = some e' ∧ e'.halted = false ∧
          e'.faultCode = e.faultCode)

/-- Addresses do not wrap (20_memory.md R51): for every MEM_SIZE, every command whose range (R46) has a byte at or beyond
2^64 faults RANGE. UPDATE, FINALIZE and COMPRESS reach that check in EMPTY and ACCUM (in UNINIT and FINAL they fault USAGE). -/
def Obligations.AddressesDoNotWrap : Prop :=
  ∀ (s : State) (e : Engine) (i : Instr), s.Running e → s.cfg.memSize ≤ 2 ^ 64 →
    (i ∈ [Instr.update, .finalize, .compress] → e.phase = .empty ∨ e.phase = .accum) →
    let bytes : Nat :=
      match i with
      | .update => e.len.toNat
      | .finalize => 16
      | .compress => 64
      | .ldLe32 | .ldBe32 | .stLe32 | .stBe32 => 4
      | .ldLe64 | .ldBe64 | .stLe64 | .stBe64 => 8
      | .init | .misaligned => 0
    2 ^ 64 < e.addr.toNat + bytes → exec i s = takesFault s e .range

/-- A fault depends only on the command word, PHASE, ADDR and LEN (60_exceptions.md R150), given MEM_SIZE: two machines that
agree on these fault alike, whatever their memory, H, BUF and COUNT. -/
def Obligations.FaultsIgnoreData : Prop :=
  ∀ (v : Dword) (s s' t t' : State) (e e' f f' : Engine), s.Running e → s'.Running e' →
    s.cfg.memSize = s'.cfg.memSize → e.phase = e'.phase → e.addr = e'.addr → e.len = e'.len →
    issue v s = .next t → issue v s' = .next t' →
    t.engines[s.sel]? = some f → t'.engines[s'.sel]? = some f' →
    f.halted = f'.halted ∧ (f.halted = true → f.faultCode = f'.faultCode)

/-- Halted (60_exceptions.md R153): a CMD write of any value is ignored; only the program moves on. -/
def Obligations.HaltedIgnoresCommandWrites : Prop :=
  ∀ (s : State) (inst : Nat) (v : Dword) (rest : List HostOp) (e : Engine),
    s.prog = .write { inst := inst, off := 0x00, bytes := 8 } v :: rest → s.engines[inst]? = some e →
    e.halted = true → step s = .next { s with sel := inst, prog := rest, pos := s.pos + 1 }

/-- Reset is the only event that clears HALTED (70_reset_and_hazards.md R177, 60_exceptions.md R162, R163): through any other
step a halted instance keeps everything but ADDR, LEN and VAL, its first fault's code among it. -/
def Obligations.OnlyResetLeavesHalted : Prop :=
  ∀ (s t : State) (j : Nat) (e : Engine), s.engines[j]? = some e → e.halted = true → step s = .next t →
    (∀ rest, s.prog ≠ .reset j :: rest) →
    ∃ a l v, t.engines[j]? = some { e with addr := a, len := l, val := v }

/-- A run that reaches a halted instance never ends successfully, unless its program resets that instance
(70_reset_and_hazards.md R188). That one halted instance of several is enough is the model's reading (assumption log 13). -/
def Obligations.HaltedRunNeverSucceeds : Prop :=
  ∀ (k : Nat) (s t : State) (j : Nat) (e : Engine), s.engines[j]? = some e → e.halted = true →
    (∀ op ∈ s.prog, op ≠ .reset j) → Host.Core.run Sys2Proof.core k s = .next t → t.succeeded = false

/-! ### The byte-order commands -/

/-- What one load does: its word, its result as the sum of byte k times 2^(place k), and its one fault. -/
def LoadRule (i : Instr) (word : Dword) (n : Nat) (place : Nat → Nat) : Prop :=
  decode word = .ok i ∧ ∀ (s : State) (e : Engine), s.Running e →
    let value := ((List.range n).map fun k => (s.mem.readByte (e.addr.toNat + k)).toNat * 2 ^ place k).sum
    (e.addr.toNat + n ≤ s.cfg.memSize →
      exec i s = .next { s with engines := s.engines.set s.sel { e with result := BitVec.ofNat 64 value } }) ∧
    (s.cfg.memSize < e.addr.toNat + n → exec i s = takesFault s e .range)

/-- LD_LE32 and LD_LE64 (40_byteorder.md R86, R88): in every phase and at every address, RESULT is the little-endian value
of the bytes at ADDR, zero-extended; nothing else changes. -/
def Obligations.LittleEndianLoads : Prop :=
  LoadRule .ldLe32 0x00000010 4 (fun k => 8 * k) ∧ LoadRule .ldLe64 0x00000012 8 (fun k => 8 * k)

/-- LD_BE32 and LD_BE64 (40_byteorder.md R87, R89): the big-endian value. -/
def Obligations.BigEndianLoads : Prop :=
  LoadRule .ldBe32 0x00000011 4 (fun k => 8 * (3 - k)) ∧ LoadRule .ldBe64 0x00000013 8 (fun k => 8 * (7 - k))

/-- What one store does: its word, byte k of the range as the bits of VAL from place k up, every other byte and all else
unchanged, and its one fault. -/
def StoreRule (i : Instr) (word : Dword) (n : Nat) (place : Nat → Nat) : Prop :=
  decode word = .ok i ∧ ∀ (s : State) (e : Engine), s.Running e → s.mem.wf →
    (e.addr.toNat + n ≤ s.cfg.memSize →
      ∃ m : Memory, exec i s = .next { s with mem := m } ∧
        (∀ k, k < n → m.readByte (e.addr.toNat + k) = BitVec.ofNat 8 (e.val.toNat / 2 ^ place k)) ∧
        ∀ a, a < e.addr.toNat ∨ e.addr.toNat + n ≤ a → m.readByte a = s.mem.readByte a) ∧
    (s.cfg.memSize < e.addr.toNat + n → exec i s = takesFault s e .range)

/-- ST_LE32 and ST_LE64 (40_byteorder.md R90, R92): the low 4 bytes or all 8 bytes of VAL, least significant first. -/
def Obligations.LittleEndianStores : Prop :=
  StoreRule .stLe32 0x00000014 4 (fun k => 8 * k) ∧ StoreRule .stLe64 0x00000016 8 (fun k => 8 * k)

/-- ST_BE32 and ST_BE64 (40_byteorder.md R91, R93): most significant first. -/
def Obligations.BigEndianStores : Prop :=
  StoreRule .stBe32 0x00000015 4 (fun k => 8 * (3 - k)) ∧ StoreRule .stBe64 0x00000017 8 (fun k => 8 * (7 - k))

/-- Store, then load with the same width and order at the same address, any alignment (40_byteorder.md R84, R99, V-B3): VAL
comes back, or its low half zero-extended. -/
def Obligations.StoreThenLoadReturnsValue : Prop :=
  ∀ (s : State) (e : Engine) (w : Width) (o : Order), s.Running e → s.mem.wf →
    e.addr.toNat + (if w = .w64 then 8 else 4) ≤ s.cfg.memSize →
    ∃ t u e', exec (byteOrderInstr true w o) s = .next t ∧ exec (byteOrderInstr false w o) t = .next u ∧
      u.engines[s.sel]? = some e' ∧
      e'.result.toNat = if w = .w64 then e.val.toNat else e.val.toNat % 2 ^ 32

/-- Mixed widths (20_memory.md R54): after ST_LE64 of v at a, LD_LE32 at a returns v[31:0] and at a+4 v[63:32]. -/
def Obligations.MixedWidthSeesSameBytes : Prop :=
  ∀ (s t : State) (e f : Engine), s.Running e → s.mem.wf → s.cfg.memSize ≤ 2 ^ 64 →
    e.addr.toNat + 8 ≤ s.cfg.memSize → exec .stLe64 s = .next t → f.halted = false →
    (f.addr = e.addr →
      ∃ u e', exec .ldLe32 (t.withEngine f) = .next u ∧ u.engines[s.sel]? = some e' ∧
        e'.result.toNat = e.val.toNat % 2 ^ 32) ∧
    (f.addr = e.addr + 4 →
      ∃ u e', exec .ldLe32 (t.withEngine f) = .next u ∧ u.engines[s.sel]? = some e' ∧
        e'.result.toNat = e.val.toNat / 2 ^ 32)

/-- The round-trip laws of 40_byteorder.md R84, and the big-endian functions as the little-endian ones of the reverse. -/
def Obligations.ByteAssemblyRoundTrips : Prop :=
  (∀ v : Word, le32 (le32bytes v) = v ∧ be32 (be32bytes v) = v) ∧
    (∀ v : Dword, le64 (le64bytes v) = v ∧ be64 (be64bytes v) = v) ∧
    (∀ s : List Byte, s.length = 4 →
      le32bytes (le32 s) = s ∧ be32bytes (be32 s) = s ∧ be32 s = le32 s.reverse) ∧
    ∀ s : List Byte, s.length = 8 →
      le64bytes (le64 s) = s ∧ be64bytes (be64 s) = s ∧ be64 s = le64 s.reverse

/-- IsPow2 (40_byteorder.md R95): the bit test says exactly that k = 2^j for some j in 0..63. -/
def Obligations.PowerOfTwoTest : Prop :=
  ∀ k : Dword, (isPow2 k = true ↔ ∃ j, j < 64 ∧ k.toNat = 2 ^ j) ∧
    (isPow2 k = true ↔ k ≠ 0 ∧ k &&& (k - 1) = 0)

/-- MISALIGNED (40_byteorder.md R94): for a power of two LEN, RESULT is 1 exactly when ADDR is no multiple of it; any other
LEN, 0 among them, faults ALIGN_ARG. ADDR need not be below MEM_SIZE. -/
def Obligations.MisalignedAnswersMultiple : Prop :=
  decode 0x00000018 = .ok .misaligned ∧ ∀ (s : State) (e : Engine), s.Running e →
    let answered : Engine := { e with result := if e.addr.toNat % e.len.toNat = 0 then 0 else 1 }
    ((∃ j, j < 64 ∧ e.len.toNat = 2 ^ j) →
      exec .misaligned s = .next { s with engines := s.engines.set s.sel answered }) ∧
    ((¬ ∃ j, j < 64 ∧ e.len.toNat = 2 ^ j) → exec .misaligned s = takesFault s e .alignArg)

/-! ### The compression function -/

/-- The round functions bit by bit (41_compression.md R100 to R102): a selection, a majority, a parity. -/
def Obligations.RoundFunctionsBitwise : Prop :=
  ∀ (x y z : Word) (k : Nat), k < 32 →
    (f1 x y z).getLsbD k = (if x.getLsbD k then y.getLsbD k else z.getLsbD k) ∧
    (f2 x y z).getLsbD k =
      decide (2 ≤ (x.getLsbD k).toNat + (y.getLsbD k).toNat + (z.getLsbD k).toNat) ∧
    (f3 x y z).getLsbD k =
      decide (((x.getLsbD k).toNat + (y.getLsbD k).toNat + (z.getLsbD k).toNat) % 2 = 1)

/-- The identities of 41_compression.md R111. -/
def Obligations.RoundFunctionIdentities : Prop :=
  ∀ x y z : Word, f1 x y z = z ^^^ (x &&& (y ^^^ z)) ∧ f2 x y z = (x &&& y) ||| (z &&& (x ||| y))

/-- `rotl32` (00_scope.md R12): bit i of the result is bit (i - s) mod 32 of x; the engine uses only the eight amounts. -/
def Obligations.RotateMovesBits : Prop :=
  (∀ (x : Word) (a i : Nat), 1 ≤ a → a ≤ 31 → i < 32 →
      (rotl32 x a).getLsbD i = x.getLsbD ((i + 32 - a) % 32)) ∧
    ∀ (r : Round) (i : Nat), i < 16 → r.shift i ∈ [3, 5, 7, 9, 11, 13, 15, 19]

/-- The closed forms of the word orders (41_compression.md R104), and that each round reads every message word once. -/
def Obligations.WordOrderClosedForms : Prop :=
  (∀ i, i < 16 → Round.r1.wordIndex i = i ∧ Round.r2.wordIndex i = 4 * (i % 4) + i / 4 ∧
      Round.r3.wordIndex i = 8 * (i % 2) + 4 * (i / 2 % 2) + 2 * (i / 4 % 2) + i / 8) ∧
    ∀ (r : Round) (k : Nat), k < 16 → ∃ i, i < 16 ∧ r.wordIndex i = k ∧ ∀ j, j < 16 → r.wordIndex j = k → j = i

/-- The rotating form of 41_compression.md R110 computes Compress. -/
def Obligations.RotatingFormIsCompress : Prop :=
  ∀ (h : Chain) (block : List Byte), compressRotating h block = compress h block

/-- COMPRESS (41_compression.md R114): in EMPTY or ACCUM, H <- Compress(H, the 64 bytes at ADDR) and nothing else changes;
USAGE in UNINIT and FINAL, before RANGE; and the rule's example. -/
def Obligations.CompressCommandMixesBlock : Prop :=
  decode 0x00000004 = .ok .compress ∧
    compress { a := 0x67452301, b := 0xEFCDAB89, c := 0x98BADCFE, d := 0x10325476 } (0x80 :: List.replicate 63 0x00) =
      { a := 0xE0CFD631, b := 0x31E96AD1, c := 0xD7593CB7, d := 0xC089C0E0 } ∧
    ∀ (s : State) (e : Engine), s.Running e →
      let block := (List.range 64).map fun k => s.mem.readByte (e.addr.toNat + k)
      (e.phase = .empty ∨ e.phase = .accum →
        (e.addr.toNat + 64 ≤ s.cfg.memSize →
          exec .compress s = .next { s with engines := s.engines.set s.sel { e with h := compress e.h block } }) ∧
        (s.cfg.memSize < e.addr.toNat + 64 → exec .compress s = takesFault s e .range)) ∧
      (e.phase = .uninit ∨ e.phase = .final → exec .compress s = takesFault s e .usage)

/-! ### The streaming engine -/

/-- INIT (42_stream.md R127) with IV (R126): in every phase H <- IV, COUNT <- 0, PHASE <- EMPTY, and nothing else. -/
def Obligations.InitLoadsInitialValue : Prop :=
  decode 0x00000001 = .ok .init ∧ ∀ (s : State) (e : Engine), s.Running e →
    let initial : Chain := { a := 0x67452301, b := 0xEFCDAB89, c := 0x98BADCFE, d := 0x10325476 }
    let loaded : Engine := { e with h := initial, count := 0, phase := .empty }
    exec .init s = .next { s with engines := s.engines.set s.sel loaded }

/-- UPDATE (42_stream.md R128, R129): the buffered bytes and the LEN bytes at ADDR are one sequence; exactly
((COUNT mod 64) + LEN) div 64 blocks of it are compressed, in order, and the rest is buffered; COUNT grows by LEN mod 2^64,
PHASE is ACCUM; every other register, memory and the run are unchanged. -/
def Obligations.UpdateAbsorbsMemoryBytes : Prop :=
  ∀ (s : State) (e : Engine), s.Running e → (e.phase = .empty ∨ e.phase = .accum) →
    (e.len.toNat = 0 ∨ e.addr.toNat + e.len.toNat ≤ s.cfg.memSize) →
    let pending := e.buffered ++ (List.range e.len.toNat).map fun k => s.mem.readByte (e.addr.toNat + k)
    let blocks := (e.count.toNat % 64 + e.len.toNat) / 64
    ∃ e', exec .update s = .next { s with engines := s.engines.set s.sel e' } ∧
      e'.h = compressBlocks blocks e.h pending ∧ e'.buffered = pending.drop (64 * blocks) ∧
      e'.count = e.count + e.len ∧ e'.phase = .accum ∧
      e'.addr = e.addr ∧ e'.len = e.len ∧ e'.val = e.val ∧ e'.result = e.result ∧
      e'.halted = e.halted ∧ e'.faultCode = e.faultCode

/-- UPDATE with LEN = 0 (42_stream.md R129, 20_memory.md R50): legal at every ADDR, and only PHASE changes. -/
def Obligations.ZeroLengthUpdateOnlySetsPhase : Prop :=
  ∀ (s : State) (e : Engine), s.Running e → (e.phase = .empty ∨ e.phase = .accum) → e.len = 0 →
    exec .update s = .next { s with engines := s.engines.set s.sel { e with phase := .accum } }

/-- The pad (42_stream.md R131): 0x80 and zeros, padlen bytes, 1 to 64 of them; after it COUNT mod 64 = 56. -/
def Obligations.PadReachesFiftySix : Prop :=
  ∀ e : Engine,
    let index := e.count.toNat % 64
    let padlen := if index < 56 then 56 - index else 120 - index
    pad index = 0x80 :: List.replicate (padlen - 1) 0x00 ∧ 1 ≤ padlen ∧ padlen ≤ 64 ∧
      (pad index).length = padlen ∧ (e.absorb (pad index)).count.toNat % 64 = 56

/-- The length suffix (42_stream.md R132, R138): byte k of the low 64 bits of 8 times the length, also after COUNT has
wrapped; and the same as the low word then the high word. -/
def Obligations.SuffixIsBitLength : Prop :=
  (∀ (n k : Nat), k < 8 →
      (lengthSuffix (BitVec.ofNat 64 n))[k]? = some (BitVec.ofNat 8 (8 * n % 2 ^ 64 / 2 ^ (8 * k)))) ∧
    ∀ c : Dword, lengthSuffix c =
      le32bytes ((c <<< 3).extractLsb' 0 32) ++ le32bytes ((c <<< 3).extractLsb' 32 32)

/-- FINALIZE (42_stream.md R131 to R135): pad and length suffix, both from COUNT as it was, complete one block if
COUNT mod 64 < 56 and two otherwise; H is the result; the 16 bytes at ADDR are the words A, B, C, D, each least significant
byte first; COUNT grows by padlen + 8, no byte is buffered, PHASE is FINAL; every other byte, register and the run are
unchanged. -/
def Obligations.FinalizeWritesDigest : Prop :=
  ∀ (s : State) (e : Engine), s.Running e → (e.phase = .empty ∨ e.phase = .accum) → s.mem.wf →
    e.addr.toNat + 16 ≤ s.cfg.memSize →
    let index := e.count.toNat % 64
    let padlen := if index < 56 then 56 - index else 120 - index
    let blocks := if index < 56 then 1 else 2
    let tail := e.buffered ++ 0x80 :: List.replicate (padlen - 1) 0x00 ++
      (List.range 8).map fun k => BitVec.ofNat 8 (8 * e.count.toNat % 2 ^ 64 / 2 ^ (8 * k))
    let h := compressBlocks blocks e.h tail
    tail.length = 64 * blocks ∧
    ∃ (e' : Engine) (m : Memory),
      exec .finalize s = .next { s with engines := s.engines.set s.sel e', mem := m } ∧
      e'.h = h ∧ e'.count = e.count + BitVec.ofNat 64 (padlen + 8) ∧ e'.count.toNat % 64 = 0 ∧ e'.phase = .final ∧
      e'.addr = e.addr ∧ e'.len = e.len ∧ e'.val = e.val ∧ e'.result = e.result ∧
      e'.halted = e.halted ∧ e'.faultCode = e.faultCode ∧
      (∀ k, k < 16 → m.readByte (e.addr.toNat + k) =
        BitVec.ofNat 8 (([h.a, h.b, h.c, h.d].getD (k / 4) 0).toNat / 2 ^ (8 * (k % 4)))) ∧
      ∀ a, a < e.addr.toNat ∨ e.addr.toNat + 16 ≤ a → m.readByte a = s.mem.readByte a

/-- The phase table of 42_stream.md R125: the next phase of each command that runs; a command not listed for a phase faults
USAGE; a faulted command and a byte-order command leave PHASE as it is. -/
def Obligations.PhaseTransitions : Prop :=
  ∀ (s t : State) (e e' : Engine) (i : Instr), s.Running e → exec i s = .next t →
    t.engines[s.sel]? = some e' →
    (i = .init → e'.phase = .empty) ∧
    (i ∈ [Instr.update, .compress, .finalize] → e.phase = .uninit ∨ e.phase = .final →
      e'.halted = true ∧ e'.faultCode = .usage ∧ e'.phase = e.phase) ∧
    (i ∈ [Instr.update, .compress, .finalize] → e.phase = .empty ∨ e.phase = .accum →
      (e'.halted = false → e'.phase = if i = .update then .accum else if i = .finalize then .final else e.phase) ∧
      (e'.halted = true → e'.phase = e.phase)) ∧
    (i ∉ [Instr.init, .update, .compress, .finalize] → e'.phase = e.phase)

/-- Chunk independence (42_stream.md R130): Absorb(s) then Absorb(t) leaves H, COUNT and the buffered bytes as
Absorb(s ++ t) does. -/
def Obligations.ChunkIndependence : Prop :=
  ∀ (e : Engine) (s t : List Byte),
    ((e.absorb s).absorb t).h = (e.absorb (s ++ t)).h ∧
    ((e.absorb s).absorb t).count = (e.absorb (s ++ t)).count ∧
    ((e.absorb s).absorb t).buffered = (e.absorb (s ++ t)).buffered

/-- The context represents the message: INIT starts the empty one, and UPDATE appends the bytes it reads (10_state.md R25,
R28; 42_stream.md R130). -/
def Obligations.ContextRepresentsMessage : Prop :=
  (∀ (s : State) (e : Engine), s.Running e →
    ∃ t e', exec .init s = .next t ∧ t.Running e' ∧ e'.phase = .empty ∧ e'.Holds []) ∧
  ∀ (s : State) (e : Engine) (m : List Byte), s.Running e → (e.phase = .empty ∨ e.phase = .accum) →
    (e.len.toNat = 0 ∨ e.addr.toNat + e.len.toNat ≤ s.cfg.memSize) → e.Holds m →
    ∃ t e', exec .update s = .next t ∧ t.Running e' ∧ e'.phase = .accum ∧
      e'.Holds (m ++ s.mem.read e.addr.toNat e.len.toNat)

/-- The digest (42_stream.md R140): when the context holds a message m, of any length and however it was chunked, FINALIZE
writes MD4(m) to the 16 bytes at ADDR and leaves it in H01 and H23 (10_state.md R36). -/
def Obligations.FinalizeWritesMD4OfMessage : Prop :=
  ∀ (s : State) (e : Engine) (m : List Byte), s.Running e → (e.phase = .empty ∨ e.phase = .accum) → s.mem.wf →
    e.addr.toNat + 16 ≤ s.cfg.memSize → e.Holds m →
    ∃ t e', exec .finalize s = .next t ∧ t.engines[s.sel]? = some e' ∧ t.mem.read e.addr.toNat 16 = md4 m ∧
      le64bytes (e'.readReg .h01) ++ le64bytes (e'.readReg .h23) = md4 m

/-! ### Frames -/

/-- Who writes what (10_state.md R22 to R31, section 9): no command writes ADDR, LEN or VAL; only LD_* and MISALIGNED write
RESULT; only INIT, COMPRESS, UPDATE and FINALIZE write H; only UPDATE and FINALIZE write BUF; only INIT, UPDATE and
FINALIZE write COUNT and PHASE; no command touches another instance, the parameters or the run. -/
def Obligations.CommandRegisterFrame : Prop :=
  ∀ (i : Instr) (s t : State), exec i s = .next t →
    ∃ e e', s.engines[s.sel]? = some e ∧ t.engines[s.sel]? = some e' ∧
      e'.addr = e.addr ∧ e'.len = e.len ∧ e'.val = e.val ∧
      (i ∉ [Instr.ldLe32, .ldBe32, .ldLe64, .ldBe64, .misaligned] → e'.result = e.result) ∧
      (i ∉ [Instr.init, .compress, .update, .finalize] → e'.h = e.h) ∧
      (i ∉ [Instr.update, .finalize] → e'.buf = e.buf) ∧
      (i ∉ [Instr.init, .update, .finalize] → e'.count = e.count ∧ e'.phase = e.phase) ∧
      (∀ j, j ≠ s.sel → t.engines[j]? = s.engines[j]?) ∧ t.engines.length = s.engines.length ∧
      t.cfg = s.cfg ∧ t.sel = s.sel ∧ t.prog = s.prog ∧ t.pos = s.pos ∧ t.obs = s.obs

/-- Which bytes of memory a command can change (20_memory.md R46, R58): none, except the 16 bytes at ADDR for FINALIZE and
the 4 or 8 bytes at ADDR for ST_*. -/
def Obligations.CommandMemoryFrame : Prop :=
  ∀ (i : Instr) (s t : State) (e : Engine) (a : Nat), s.engines[s.sel]? = some e → exec i s = .next t →
    (i ∉ [Instr.finalize, .stLe32, .stBe32, .stLe64, .stBe64] → t.mem.readByte a = s.mem.readByte a) ∧
    (i = .finalize → a < e.addr.toNat ∨ e.addr.toNat + 16 ≤ a → t.mem.readByte a = s.mem.readByte a) ∧
    (i ∈ [Instr.stLe32, .stBe32] → a < e.addr.toNat ∨ e.addr.toNat + 4 ≤ a →
      t.mem.readByte a = s.mem.readByte a) ∧
    (i ∈ [Instr.stLe64, .stBe64] → a < e.addr.toNat ∨ e.addr.toNat + 8 ≤ a →
      t.mem.readByte a = s.mem.readByte a)

/-! ### Isolation, observation, concurrency -/

/-- Instances are independent (10_state.md R43): what a command does to its instance and to host memory is the same whatever
the other instances hold, and it leaves them as they were. -/
def Obligations.InstancesAreIndependent : Prop :=
  ∀ (i : Instr) (s t : State) (others : List Engine), others[s.sel]? = s.engines[s.sel]? → exec i s = .next t →
    ∃ t', exec i { s with engines := others } = .next t' ∧ t'.mem = t.mem ∧
      t'.engines[s.sel]? = t.engines[s.sel]? ∧
      (∀ j, j ≠ s.sel → t.engines[j]? = s.engines[j]? ∧ t'.engines[j]? = others[j]?)

/-- The BUF bytes at and above COUNT mod 64 hold no meaning (10_state.md R28, 42_stream.md R130): two machines that differ in
nothing else are observed alike, and stay so through every step. -/
def Obligations.StaleBufferNeverObserved : Prop :=
  ∀ s s' : State, s.sameButStale s' →
    s.observe = s'.observe ∧
    ∀ t, step s = .next t → ∃ t', step s' = .next t' ∧ t.sameButStale t'

/-- Commands of several instances at once (20_memory.md R60): the order they take effect in makes no difference, to the
outcome where none race and to the refusal where some do. The operation's form is the model's choice (assumption log 7). -/
def Obligations.ConcurrentOrderMakesNoDifference : Prop :=
  ∀ (s : State) (cmds cmds' : List (Nat × Dword)), s.mem.wf → cmds.Perm cmds' →
    perform (.issueTogether cmds) s = perform (.issueTogether cmds') s

/-- Commands of different instances at once take effect (20_memory.md R60): where no two of them share a byte that one of
them writes (ignored and faulting commands access nothing, assumption log 8), the outcome is the next state of the CMD writes
one after another, the selection as it was; each named instance ends as its command alone would leave it, and every other
instance is as it was. -/
def Obligations.ConcurrentCommandsTakeEffect : Prop :=
  ∀ (s : State) (cmds : List (Nat × Dword)),
    (∀ c ∈ cmds, c.1 < s.engines.length) → (cmds.map (·.1)).Nodup →
    (cmds.Pairwise fun c d => ∀ (e f : Engine) (a b : Instr) (x : Nat),
      s.engines[c.1]? = some e → s.engines[d.1]? = some f → e.halted = false → f.halted = false →
      decode c.2 = .ok a → decode d.2 = .ok b →
      faultOf s.cfg.memSize e a = none → faultOf s.cfg.memSize f b = none →
      (writesMemory a = true ∨ writesMemory b = true) →
      ¬ (e.addr.toNat ≤ x ∧ x < e.addr.toNat + memBytes e a ∧ f.addr.toNat ≤ x ∧ x < f.addr.toNat + memBytes f b)) →
    ∃ t, issueEach cmds s = .next t ∧ perform (.issueTogether cmds) s = .next { t with sel := s.sel } ∧
      (∀ c ∈ cmds, ∃ u, issue c.2 { s with sel := c.1 } = .next u ∧ t.engines[c.1]? = u.engines[c.1]?) ∧
      ∀ j, j ∉ cmds.map (·.1) → t.engines[j]? = s.engines[j]?

/-- A race is refused (20_memory.md R60): two commands at once, on different instances, neither ignored nor faulting, that
both access some byte, one of them writing. That an ignored or faulting command accesses nothing is the model's reading
(assumption log 8). -/
def Obligations.RacesAreRefused : Prop :=
  ∀ (s : State) (i j x : Nat) (e f : Engine) (a b : Instr), i ≠ j →
    s.engines[i]? = some e → s.engines[j]? = some f → e.halted = false → f.halted = false →
    faultOf s.cfg.memSize e a = none → faultOf s.cfg.memSize f b = none →
    (writesMemory a = true ∨ writesMemory b = true) →
    e.addr.toNat ≤ x → x < e.addr.toNat + memBytes e a → f.addr.toNat ≤ x → x < f.addr.toNat + memBytes f b →
    perform (.issueTogether [(i, encodeCmd a), (j, encodeCmd b)]) s = .refused .race

/-! ### The host register block -/

/-- What the registers read as (10_state.md R33, R34, R36, R37), at each offset of the block; a read changes nothing of the
instances or memory (R40): the value is appended to the observations (70_reset_and_hazards.md R187). -/
def Obligations.RegisterReads : Prop :=
  ∀ (s : State) (inst off : Nat) (e : Engine), s.engines[inst]? = some e → off < 0x80 → off % 8 = 0 →
    let phase := match e.phase with | .uninit => 0 | .empty => 1 | .accum => 2 | .final => 3
    let code := match e.faultCode with | .none => 0 | .illegal => 1 | .usage => 2 | .alignArg => 3 | .range => 4
    let value : Nat :=
      if off = 0x08 then e.addr.toNat else if off = 0x10 then e.len.toNat else if off = 0x18 then e.val.toNat
      else if off = 0x20 then e.result.toNat
      else if off = 0x28 then phase + 4 * (if e.halted then 1 else 0) + 256 * code
      else if off = 0x30 then e.count.toNat
      else if off = 0x38 then e.h.a.toNat + 2 ^ 32 * e.h.b.toNat
      else if off = 0x40 then e.h.c.toNat + 2 ^ 32 * e.h.d.toNat
      else 0
    perform (.read { inst := inst, off := off, bytes := 8 }) s =
      .next { s with sel := inst, obs := s.obs ++ [BitVec.ofNat 64 value] }

/-- The host may write ADDR, LEN and VAL in every phase, halted or not; the write takes effect at once and changes nothing
else (10_state.md R39). -/
def Obligations.OperandWrites : Prop :=
  ∀ (s : State) (inst : Nat) (e : Engine) (v : Dword), s.engines[inst]? = some e →
    perform (.write { inst := inst, off := 0x08, bytes := 8 } v) s =
      .next { s with sel := inst, engines := s.engines.set inst { e with addr := v } } ∧
    perform (.write { inst := inst, off := 0x10, bytes := 8 } v) s =
      .next { s with sel := inst, engines := s.engines.set inst { e with len := v } } ∧
    perform (.write { inst := inst, off := 0x18, bytes := 8 } v) s =
      .next { s with sel := inst, engines := s.engines.set inst { e with val := v } }

/-- 10_state.md R38: a write to a read-only register or a reserved offset is ignored, a reserved offset reads as 0, and an
access narrower than 64 bits or not at a multiple of 8 is refused. -/
def Obligations.IgnoredAndRefusedAccesses : Prop :=
  ∀ (s : State) (inst off bytes : Nat) (e : Engine) (v : Dword), s.engines[inst]? = some e → off < 0x80 →
    (0x20 ≤ off → off % 8 = 0 →
      perform (.write { inst := inst, off := off, bytes := 8 } v) s = .next { s with sel := inst }) ∧
    (0x48 ≤ off → off % 8 = 0 →
      perform (.read { inst := inst, off := off, bytes := 8 }) s = .next { s with sel := inst, obs := s.obs ++ [0] }) ∧
    (bytes < 8 ∨ off % 8 ≠ 0 →
      perform (.write { inst := inst, off := off, bytes := bytes } v) s = .refused .partialAccess ∧
      perform (.read { inst := inst, off := off, bytes := bytes }) s = .refused .partialAccess)

/-- A bus access at ENGINE_BASE[i] + offset is the access to that offset of instance i (10_state.md R33, 60_exceptions.md
R169), where the blocks do not overlap (the model's choice, assumption log 14). -/
def Obligations.BusAddressReachesRegister : Prop :=
  ∀ (s : State) (i off bytes base : Nat) (v : Dword), s.cfg.wf → s.cfg.engineBase[i]? = some base → off < 0x80 →
    perform (.busWrite (base + off) bytes v) s = perform (.write { inst := i, off := off, bytes := bytes } v) s ∧
    perform (.busRead (base + off) bytes) s = perform (.read { inst := i, off := off, bytes := bytes }) s

/-- Host memory keeps what the host stores (20_memory.md R57), every other byte and every register are unchanged, and a load
observes the byte; an address at or above MEM_SIZE does not exist (R45) and stops the model. That the host's own accesses
are host operations, and that they stop so, is the model's choice (assumption log 10). -/
def Obligations.HostStoreAndLoad : Prop :=
  ∀ (s : State) (addr : Nat) (data : List Byte), s.mem.wf →
    (addr + data.length ≤ s.cfg.memSize →
      ∃ m : Memory, perform (.hostStore addr data) s = .next { s with mem := m } ∧
        (∀ (k : Nat) (_ : k < data.length), m.readByte (addr + k) = data[k]) ∧
        ∀ a, a < addr ∨ addr + data.length ≤ a → m.readByte a = s.mem.readByte a) ∧
    (addr < s.cfg.memSize → perform (.hostLoad addr) s =
      .next { s with obs := s.obs ++ [BitVec.ofNat 64 (s.mem.readByte addr).toNat] }) ∧
    (s.cfg.memSize ≤ addr → perform (.hostLoad addr) s = .fault .hostAddressOutOfMemory)

/-- The pseudo-instructions and their exact expansions (30_encoding.md R76), down to the bus writes of R74. -/
def Obligations.PseudoInstructionsExpand : Prop :=
  ∀ (i : Nat) (a n v k d : Dword),
    let W := fun (off : Nat) (x : Dword) => HostOp.write { inst := i, off := off, bytes := 8 } x
    assemble i [.update a n] = some [W 0x08 a, W 0x10 n, W 0x00 0x00000002] ∧
    assemble i [.finalize a] = some [W 0x08 a, W 0x00 0x00000003] ∧
    assemble i [.compress a] = some [W 0x08 a, W 0x00 0x00000004] ∧
    assemble i [.ld .little .w32 a] = some [W 0x08 a, W 0x00 0x00000010] ∧
    assemble i [.ld .big .w32 a] = some [W 0x08 a, W 0x00 0x00000011] ∧
    assemble i [.ld .little .w64 a] = some [W 0x08 a, W 0x00 0x00000012] ∧
    assemble i [.ld .big .w64 a] = some [W 0x08 a, W 0x00 0x00000013] ∧
    assemble i [.st .little .w32 a v] = some [W 0x08 a, W 0x18 v, W 0x00 0x00000014] ∧
    assemble i [.st .big .w32 a v] = some [W 0x08 a, W 0x18 v, W 0x00 0x00000015] ∧
    assemble i [.st .little .w64 a v] = some [W 0x08 a, W 0x18 v, W 0x00 0x00000016] ∧
    assemble i [.st .big .w64 a v] = some [W 0x08 a, W 0x18 v, W 0x00 0x00000017] ∧
    assemble i [.misaligned a k] = some [W 0x08 a, W 0x10 k, W 0x00 0x00000018] ∧
    assemble i [.md4 a n d] =
      some [W 0x00 0x00000001, W 0x08 a, W 0x10 n, W 0x00 0x00000002, W 0x08 d, W 0x00 0x00000003]
end

