-- ==== Sys2Proof/Laws/Memory.lean ====
section
/-! SUPPORT. Host memory: a read after a write, the canonical form, and that two canonical memories that read alike are
equal (20_memory.md R48, R49, R57). -/

namespace Sys2Proof.Machine

/-- A read of the byte just written gives it (20_memory.md R57). -/
theorem readByte_writeByte_same (m : Memory) (a : Nat) (b : Byte) (hm : m.wf) :
    (m.writeByte a b).readByte a = b := by
  induction m with
  | nil => by_cases hb : b = Memory.unlisted <;> simp [Memory.writeByte, Memory.readByte, hb]
  | cons p m ih =>
    obtain ⟨a', b'⟩ := p
    obtain ⟨hs, hd⟩ := hm
    rw [List.pairwise_cons] at hs
    have ih := ih ⟨hs.2, fun q hq => hd q (List.mem_cons_of_mem _ hq)⟩
    have above : ∀ l : Memory, (∀ q ∈ l, a < q.1) → l.readByte a = Memory.unlisted := by
      intro l
      induction l with
      | nil => intro _; rfl
      | cons q l ihl =>
        intro hl
        have hq := hl q (List.mem_cons_self ..)
        simp only [Memory.readByte]
        rw [if_neg (by omega)]
        exact ihl fun r hr => hl r (List.mem_cons_of_mem _ hr)
    simp only [Memory.writeByte]
    split_ifs with h1 h2 h3 h4
    · rw [above _ ?_, h2]
      intro q hq
      rcases List.mem_cons.mp hq with rfl | hq
      · exact h1
      · have := hs.1 q hq
        simp only at this
        omega
    · simp [Memory.readByte]
    · rw [above _ ?_, h4]
      intro q hq
      have := hs.1 q hq
      simp only at this
      omega
    · simp [Memory.readByte]
    · simp [Memory.readByte, h3, ih]

/-- Every other byte reads as before (20_memory.md R49). -/
@[simp] theorem readByte_writeByte_other (m : Memory) {a x : Nat} (b : Byte) (hx : x ≠ a) :
    (m.writeByte a b).readByte x = m.readByte x := by
  induction m with
  | nil => by_cases hb : b = Memory.unlisted <;> simp [Memory.writeByte, Memory.readByte, hb, hx]
  | cons p m ih =>
    obtain ⟨a', b'⟩ := p
    simp only [Memory.writeByte]
    split_ifs with h1 h2 h3 h4 <;> simp_all [Memory.readByte]

/-- Every address listed after a write was listed before, or is the one written. -/
theorem mem_writeByte {m : Memory} {a : Nat} {b : Byte} {p : Host.Cell} (hp : p ∈ m.writeByte a b) :
    p ∈ m ∨ p = (a, b) ∧ b ≠ Memory.unlisted := by
  induction m with
  | nil =>
    by_cases hb : b = Memory.unlisted
    · simp [Memory.writeByte, hb] at hp
    · simp only [Memory.writeByte, hb, if_false, List.mem_singleton] at hp
      exact .inr ⟨hp, hb⟩
  | cons q m ih =>
    obtain ⟨a', b'⟩ := q
    simp only [Memory.writeByte] at hp
    split_ifs at hp with h1 h2 h3 h4
    · exact .inl hp
    · rcases List.mem_cons.mp hp with rfl | hp
      · exact .inr ⟨rfl, h2⟩
      · exact .inl hp
    · exact .inl (List.mem_cons_of_mem _ hp)
    · rcases List.mem_cons.mp hp with rfl | hp
      · exact .inr ⟨rfl, h4⟩
      · exact .inl (List.mem_cons_of_mem _ hp)
    · rcases List.mem_cons.mp hp with rfl | hp
      · exact .inl (List.mem_cons_self ..)
      · rcases ih hp with hp | hp
        · exact .inl (List.mem_cons_of_mem _ hp)
        · exact .inr hp

/-- A write of a byte keeps the canonical form. -/
theorem writeByte_wf {m : Memory} (hm : m.wf) (a : Nat) (b : Byte) : (m.writeByte a b).wf := by
  refine ⟨?_, fun p hp => ?_⟩
  · induction m with
    | nil => by_cases hb : b = Memory.unlisted <;> simp [Memory.writeByte, hb]
    | cons q m ih =>
      obtain ⟨a', b'⟩ := q
      have hs := List.pairwise_cons.mp hm.1
      have htail : Memory.wf m := ⟨hs.2, fun q hq => hm.2 q (List.mem_cons_of_mem _ hq)⟩
      simp only [Memory.writeByte]
      split_ifs with h1 h2 h3 h4
      · exact hm.1
      · refine List.pairwise_cons.mpr ⟨fun q hq => ?_, hm.1⟩
        rcases List.mem_cons.mp hq with rfl | hq
        · exact h1
        · exact Nat.lt_trans h1 (hs.1 q hq)
      · exact hs.2
      · refine List.pairwise_cons.mpr ⟨fun q hq => ?_, hs.2⟩
        have := hs.1 q hq
        simp only at this ⊢
        omega
      · refine List.pairwise_cons.mpr ⟨fun q hq => ?_, ih htail⟩
        rcases mem_writeByte hq with hq | ⟨rfl, -⟩
        · exact hs.1 q hq
        · simp only
          omega
  · rcases mem_writeByte hp with hp | ⟨rfl, hb⟩
    · exact hm.2 p hp
    · exact hb

/-- `MemWrite` keeps the canonical form. -/
theorem write_wf {m : Memory} (hm : m.wf) (addr : Nat) (s : List Byte) : (m.write addr s).wf := by
  induction s generalizing m addr with
  | nil => exact hm
  | cons b s ih => exact ih (writeByte_wf hm addr b) (addr + 1)

/-- "Every other byte of M is unchanged" (20_memory.md R49). -/
theorem readByte_write_outside (m : Memory) (addr : Nat) (s : List Byte) {x : Nat}
    (hx : x < addr ∨ addr + s.length ≤ x) : (m.write addr s).readByte x = m.readByte x := by
  induction s generalizing m addr with
  | nil => rfl
  | cons b s ih =>
    simp only [List.length_cons] at hx
    simp only [Memory.write]
    rw [ih _ _ (by omega), readByte_writeByte_other _ _ (by omega)]

/-- M[addr+k] <- s[k] (20_memory.md R49). -/
theorem readByte_write_inside {m : Memory} (hm : m.wf) (addr : Nat) (s : List Byte) {k : Nat} (hk : k < s.length) :
    (m.write addr s).readByte (addr + k) = s[k] := by
  induction s generalizing m addr k with
  | nil => simp at hk
  | cons b s ih =>
    simp only [Memory.write]
    cases k with
    | zero =>
      rw [Nat.add_zero, readByte_write_outside _ _ _ (by omega)]
      exact readByte_writeByte_same m addr b hm
    | succ k =>
      have := ih (writeByte_wf hm addr b) (addr + 1) (k := k) (by simpa using hk)
      simpa [Nat.add_assoc, Nat.add_comm 1 k] using this

/-- Every address listed after `MemWrite` was listed before, or lies in the range written. -/
theorem mem_write {m : Memory} {addr : Nat} {s : List Byte} {p : Host.Cell} (hp : p ∈ m.write addr s) :
    p ∈ m ∨ addr ≤ p.1 ∧ p.1 < addr + s.length := by
  induction s generalizing m addr with
  | nil => exact .inl hp
  | cons b s ih =>
    rcases ih hp with hp | hp
    · rcases mem_writeByte hp with hp | ⟨rfl, -⟩
      · exact .inl hp
      · exact .inr (by simp)
    · exact .inr (by simp only [List.length_cons]; omega)

@[simp] theorem read_length (m : Memory) (addr n : Nat) : (m.read addr n).length = n := by simp [Memory.read]

theorem read_getElem (m : Memory) (addr n : Nat) {k : Nat} (hk : k < (m.read addr n).length) :
    (m.read addr n)[k] = m.readByte (addr + k) := by simp [Memory.read]

/-- `MemRead` depends on the bytes read and on nothing else. -/
theorem read_congr {m m' : Memory} {addr n : Nat} (h : ∀ k < n, m.readByte (addr + k) = m'.readByte (addr + k)) :
    m.read addr n = m'.read addr n := by
  refine List.map_congr_left fun k hk => h k (List.mem_range.mp hk)

/-- What was written is read back. -/
theorem read_write_same {m : Memory} (hm : m.wf) (addr : Nat) (s : List Byte) :
    (m.write addr s).read addr s.length = s := by
  refine List.ext_getElem (by simp) fun k h1 h2 => ?_
  rw [read_getElem, readByte_write_inside hm addr s h2]

/-- A listed byte is what its address reads as. -/
theorem readByte_of_mem {m : Memory} (hm : m.wf) {p : Host.Cell} (hp : p ∈ m) : m.readByte p.1 = p.2 := by
  induction m with
  | nil => simp at hp
  | cons q m ih =>
    have hs := List.pairwise_cons.mp hm.1
    rcases List.mem_cons.mp hp with rfl | hp
    · simp [Memory.readByte]
    · have := hs.1 p hp
      simp only [Memory.readByte]
      rw [if_neg (by omega)]
      exact ih ⟨hs.2, fun r hr => hm.2 r (List.mem_cons_of_mem _ hr)⟩ hp

/-- An address below every listed one reads as unlisted. -/
theorem readByte_below {m : Memory} {a : Nat} (h : ∀ p ∈ m, a < p.1) : m.readByte a = Memory.unlisted := by
  induction m with
  | nil => rfl
  | cons q m ih =>
    have hq := h q (List.mem_cons_self ..)
    simp only [Memory.readByte]
    rw [if_neg (by omega)]
    exact ih fun r hr => h r (List.mem_cons_of_mem _ hr)

/-- Two canonical memories that read alike at every address are equal data. -/
theorem memory_ext {m m' : Memory} (hm : m.wf) (hm' : m'.wf) (h : ∀ a, m.readByte a = m'.readByte a) : m = m' := by
  induction m generalizing m' with
  | nil =>
    cases m' with
    | nil => rfl
    | cons q m' =>
      have := readByte_of_mem hm' (List.mem_cons_self (a := q) (l := m'))
      exact absurd (this.symm.trans (h q.1).symm) (hm'.2 q (List.mem_cons_self ..))
  | cons p m ih =>
    cases m' with
    | nil =>
      have := readByte_of_mem hm (List.mem_cons_self (a := p) (l := m))
      exact absurd (this.symm.trans (h p.1)) (hm.2 p (List.mem_cons_self ..))
    | cons q m' =>
      have hs := List.pairwise_cons.mp hm.1
      have hs' := List.pairwise_cons.mp hm'.1
      have hpr := readByte_of_mem hm (List.mem_cons_self (a := p) (l := m))
      have hqr := readByte_of_mem hm' (List.mem_cons_self (a := q) (l := m'))
      have keys : p.1 = q.1 := by
        rcases Nat.lt_trichotomy p.1 q.1 with hlt | heq | hgt
        · have := readByte_below (m := q :: m') (a := p.1) (by
            intro r hr
            rcases List.mem_cons.mp hr with rfl | hr
            · exact hlt
            · exact Nat.lt_trans hlt (hs'.1 r hr))
          exact absurd (hpr.symm.trans ((h p.1).trans this)) (hm.2 p (List.mem_cons_self ..))
        · exact heq
        · have := readByte_below (m := p :: m) (a := q.1) (by
            intro r hr
            rcases List.mem_cons.mp hr with rfl | hr
            · exact hgt
            · exact Nat.lt_trans hgt (hs.1 r hr))
          exact absurd (hqr.symm.trans ((h q.1).symm.trans this)) (hm'.2 q (List.mem_cons_self ..))
      have vals : p.2 = q.2 := by rw [← hpr, ← hqr, h, keys]
      have hpq : p = q := Prod.ext keys vals
      subst hpq
      have rest : m = m' := by
        refine ih ⟨hs.2, fun r hr => hm.2 r (List.mem_cons_of_mem _ hr)⟩
          ⟨hs'.2, fun r hr => hm'.2 r (List.mem_cons_of_mem _ hr)⟩ fun a => ?_
        by_cases ha : a = p.1
        · subst ha
          rw [readByte_below hs.1, readByte_below hs'.1]
        · have := h a
          simpa [Memory.readByte, ha] using this
      rw [rest]

end Sys2Proof.Machine
end

