-- ==== Sys2Proof/Laws/State.lean ====
section
/-! SUPPORT. One lemma for each field of State and Engine and each update the model makes. -/

namespace Sys2Proof.Machine

section Updates
variable (s : State) (e : Engine)

@[simp] theorem withEngine_cfg : (s.withEngine e).cfg = s.cfg := rfl
@[simp] theorem withEngine_engines : (s.withEngine e).engines = s.engines.set s.sel e := rfl
@[simp] theorem withEngine_sel : (s.withEngine e).sel = s.sel := rfl
@[simp] theorem withEngine_mem : (s.withEngine e).mem = s.mem := rfl
@[simp] theorem withEngine_prog : (s.withEngine e).prog = s.prog := rfl
@[simp] theorem withEngine_pos : (s.withEngine e).pos = s.pos := rfl
@[simp] theorem withEngine_obs : (s.withEngine e).obs = s.obs := rfl

@[simp] theorem storeAtAddr_cfg (b : List Byte) : (s.storeAtAddr e b).cfg = s.cfg := rfl
@[simp] theorem storeAtAddr_engines (b : List Byte) : (s.storeAtAddr e b).engines = s.engines := rfl
@[simp] theorem storeAtAddr_sel (b : List Byte) : (s.storeAtAddr e b).sel = s.sel := rfl
@[simp] theorem storeAtAddr_mem (b : List Byte) : (s.storeAtAddr e b).mem = s.mem.write e.addr.toNat b := rfl
@[simp] theorem storeAtAddr_prog (b : List Byte) : (s.storeAtAddr e b).prog = s.prog := rfl
@[simp] theorem storeAtAddr_pos (b : List Byte) : (s.storeAtAddr e b).pos = s.pos := rfl
@[simp] theorem storeAtAddr_obs (b : List Byte) : (s.storeAtAddr e b).obs = s.obs := rfl

@[simp] theorem advance_cfg (rest : List HostOp) : (s.advance rest).cfg = s.cfg := rfl
@[simp] theorem advance_engines (rest : List HostOp) : (s.advance rest).engines = s.engines := rfl
@[simp] theorem advance_sel (rest : List HostOp) : (s.advance rest).sel = s.sel := rfl
@[simp] theorem advance_mem (rest : List HostOp) : (s.advance rest).mem = s.mem := rfl
@[simp] theorem advance_prog (rest : List HostOp) : (s.advance rest).prog = rest := rfl
@[simp] theorem advance_pos (rest : List HostOp) : (s.advance rest).pos = s.pos + 1 := rfl
@[simp] theorem advance_obs (rest : List HostOp) : (s.advance rest).obs = s.obs := rfl

@[simp] theorem raise_addr (c : FaultCode) : (e.raise c).addr = e.addr := rfl
@[simp] theorem raise_len (c : FaultCode) : (e.raise c).len = e.len := rfl
@[simp] theorem raise_val (c : FaultCode) : (e.raise c).val = e.val := rfl
@[simp] theorem raise_result (c : FaultCode) : (e.raise c).result = e.result := rfl
@[simp] theorem raise_h (c : FaultCode) : (e.raise c).h = e.h := rfl
@[simp] theorem raise_buf (c : FaultCode) : (e.raise c).buf = e.buf := rfl
@[simp] theorem raise_count (c : FaultCode) : (e.raise c).count = e.count := rfl
@[simp] theorem raise_phase (c : FaultCode) : (e.raise c).phase = e.phase := rfl
@[simp] theorem raise_halted (c : FaultCode) : (e.raise c).halted = true := rfl
@[simp] theorem raise_faultCode (c : FaultCode) : (e.raise c).faultCode = c := rfl

end Updates

/-- The selected instance after `withEngine`, where `sel` names one. -/
theorem withEngine_selected {s : State} {e e' : Engine} (h : s.engines[s.sel]? = some e) :
    (s.withEngine e').engines[s.sel]? = some e' := by
  obtain ⟨hlt, -⟩ := List.getElem?_eq_some_iff.mp h
  simp [hlt]

/-- Every other instance is as it was. -/
theorem withEngine_other (s : State) (e' : Engine) {j : Nat} (hj : j ≠ s.sel) :
    (s.withEngine e').engines[j]? = s.engines[j]? := by
  simp [Ne.symm hj]

section OnCommand
variable {s : State} {e : Engine} {body : Engine → Out}

/-- On a running instance a command is its body. -/
theorem onCommand_running (h : s.Running e) : s.onCommand body = body e := by
  simp [State.onCommand, h.1, h.2]

/-- On a halted instance a command is ignored (60_exceptions.md R153). -/
theorem onCommand_halted (h : s.engines[s.sel]? = some e) (hh : e.halted = true) : s.onCommand body = .next s := by
  simp [State.onCommand, h, hh]

/-- Everything `onCommand` can do when it answers a next state. -/
theorem onCommand_next {t : State} (h : s.onCommand body = .next t) :
    ∃ e, s.engines[s.sel]? = some e ∧ (e.halted = true ∧ t = s ∨ s.Running e ∧ body e = .next t) := by
  unfold State.onCommand at h
  split at h
  · cases h
  · next e he =>
    refine ⟨e, he, ?_⟩
    split at h
    · next hh =>
      cases h
      exact .inl ⟨hh, rfl⟩
    · next hh => exact .inr ⟨⟨he, by simpa using hh⟩, h⟩

end OnCommand

end Sys2Proof.Machine
end

