-- ==== Sys2Proof/Laws/Stream.lean ====
section
/-! SUPPORT. The buffer, the block loop and Absorb (42_stream.md R128): what each can do, said once. -/

namespace Sys2Proof.Machine

/-! ### The buffer -/

/-- One byte of BUF after `splice`. -/
theorem splice_getElem (buf : Vector Byte 64) (index : Nat) (data : List Byte) (k : Nat) (hk : k < 64) :
    (splice buf index data)[k] = if index ≤ k then data.getD (k - index) buf[k] else buf[k] := by
  unfold splice
  simp

/-- Writing no bytes changes nothing. -/
@[simp] theorem splice_nil (buf : Vector Byte 64) (index : Nat) : splice buf index [] = buf := by
  ext k hk
  simp [splice_getElem]

/-- BUF after `splice`, where the data fits: the bytes before, the data, the bytes after. -/
theorem splice_toList {buf : Vector Byte 64} {index : Nat} {data : List Byte} (h : index + data.length ≤ 64) :
    (splice buf index data).toList = buf.toList.take index ++ data ++ buf.toList.drop (index + data.length) := by
  have hlen : buf.toList.length = 64 := by simp
  refine List.ext_getElem (by simp; omega) fun k h1 h2 => ?_
  have hk : k < 64 := by simpa using h1
  rw [Vector.getElem_toList, splice_getElem _ _ _ _ hk]
  by_cases h3 : k < index
  · rw [if_neg (by omega), List.getElem_append_left (by simp; omega), List.getElem_append_left (by simp; omega)]
    simp
  · rw [if_pos (by omega)]
    by_cases h4 : k < index + data.length
    · rw [List.getElem_append_left (by simp; omega), List.getElem_append_right (by simp; omega)]
      have : k - index < data.length := by omega
      simp [List.getD_eq_getElem?_getD, this, Nat.min_eq_left (show index ≤ 64 by omega)]
    · rw [List.getElem_append_right (by simp; omega)]
      have h5 : data.length ≤ k - index := by omega
      simp only [List.getD_eq_getElem?_getD, List.getElem?_eq_none h5, Option.getD_none, List.getElem_drop]
      have h6 : index + data.length + (k - (buf.toList.take index ++ data).length) = k := by
        simp
        omega
      simp only [h6]
      simp

/-- The number of bytes buffered depends on COUNT alone. -/
theorem index_congr {e e' : Engine} (h : e.count = e'.count) : e.index = e'.index := by
  simp only [Engine.index, h]

/-- The bytes buffered depend on COUNT and BUF alone. -/
theorem buffered_congr {e e' : Engine} (h : e.count = e'.count) (hb : e.buf = e'.buf) : e.buffered = e'.buffered := by
  simp only [Engine.buffered, index_congr h, hb]

/-- The buffered bytes are as many as COUNT mod 64 says (10_state.md R28). -/
@[simp] theorem buffered_length (e : Engine) : e.buffered.length = e.index := by
  simp [Engine.buffered, Engine.index]
  omega

/-! ### The block loop -/

/-- The first j blocks, then the next k. -/
theorem compressBlocks_add (j k : Nat) (h : Chain) (data : List Byte) :
    compressBlocks (j + k) h data = compressBlocks k (compressBlocks j h data) (data.drop (64 * j)) := by
  induction j generalizing h data with
  | zero => simp [compressBlocks]
  | succ j ih =>
    rw [show j + 1 + k = (j + k) + 1 by omega]
    simp only [compressBlocks]
    rw [ih, List.drop_drop, show 64 + 64 * j = 64 * (j + 1) by omega]

/-- The loop reads no byte after its last block. -/
theorem compressBlocks_append {k : Nat} (h : Chain) {s : List Byte} (t : List Byte) (hk : 64 * k ≤ s.length) :
    compressBlocks k h (s ++ t) = compressBlocks k h s := by
  induction k generalizing h s with
  | zero => rfl
  | succ k ih =>
    simp only [compressBlocks]
    rw [List.take_append_of_le_length (by omega), List.drop_append_of_le_length (by omega)]
    exact ih _ (by simp; omega)

/-! ### Absorb -/

/-- Absorb changes H, BUF and COUNT of an instance and nothing else. -/
theorem absorb_frame (e : Engine) (data : List Byte) :
    ∃ h buf, e.absorb data = { e with h := h, buf := buf, count := e.count + BitVec.ofNat 64 data.length } := by
  by_cases hc : e.index ≠ 0 ∧ 64 - e.index ≤ data.length
  · exact ⟨_, _, by unfold Engine.absorb; rw [if_pos hc]; rfl⟩
  · exact ⟨_, _, by unfold Engine.absorb; rw [if_neg hc]; rfl⟩

/-- "Counter increases by `length` immediately" (42_stream.md R128). -/
@[simp] theorem absorb_count (e : Engine) (data : List Byte) :
    (e.absorb data).count = e.count + BitVec.ofNat 64 data.length := by
  obtain ⟨h, buf, heq⟩ := absorb_frame e data
  rw [heq]

/-- The number of bytes buffered after Absorb. The wrap of COUNT keeps it, because 2^64 is a multiple of 64
(42_stream.md R139). -/
theorem absorb_index (e : Engine) (data : List Byte) : (e.absorb data).index = (e.index + data.length) % 64 := by
  simp only [Engine.index, absorb_count, BitVec.toNat_add, BitVec.toNat_ofNat]
  omega

/-- What `absorbFrom` leaves in H and in the buffer's first bytes, where `index` bytes are buffered and the last bytes of
the data fit after them. -/
theorem absorbFrom_spec {e : Engine} {index : Nat} {data : List Byte} (hfit : index + data.length % 64 ≤ 64) :
    (e.absorbFrom index data).h = compressBlocks (data.length / 64) e.h data ∧
      (e.absorbFrom index data).buf.toList.take (index + data.length % 64) =
        e.buf.toList.take index ++ data.drop (64 * (data.length / 64)) := by
  refine ⟨rfl, ?_⟩
  have hlen : (data.drop (64 * (data.length / 64))).length = data.length % 64 := by
    simp only [List.length_drop]
    omega
  simp only [Engine.absorbFrom]
  rw [splice_toList (by omega), hlen]
  rw [List.take_append_of_le_length (by simp; omega)]
  exact List.take_of_length_le (by simp; omega)

/-- What Absorb does to the stream (42_stream.md R128), without its two paths: the buffered bytes and the data are one
sequence, its complete blocks are compressed in order, and the rest is buffered. -/
theorem absorb_spec (e : Engine) (data : List Byte) :
    (e.absorb data).h = compressBlocks ((e.buffered ++ data).length / 64) e.h (e.buffered ++ data) ∧
      (e.absorb data).buffered =
        (e.buffered ++ data).drop (64 * ((e.buffered ++ data).length / 64)) := by
  have hidx : e.index < 64 := Nat.mod_lt _ (by decide)
  have hbl : e.buffered.length = e.index := buffered_length e
  have htot : (e.buffered ++ data).length = e.index + data.length := by simp
  have hbuf : ∀ i, (e.absorb data).index = i →
      (e.absorb data).buffered = (e.absorb data).buf.toList.take i := fun i hi => by rw [Engine.buffered, hi]
  by_cases hc : e.index ≠ 0 ∧ 64 - e.index ≤ data.length
  · -- the buffered bytes and the data fill a block
    set filled := splice e.buf e.index (data.take (64 - e.index)) with hfilled
    set mid : Engine := { e with count := e.count + BitVec.ofNat 64 data.length, buf := filled,
                                 h := compress e.h filled.toList } with hmid
    have habs : e.absorb data = mid.absorbFrom 0 (data.drop (64 - e.index)) := by
      unfold Engine.absorb
      rw [if_pos hc]
    have htake : (data.take (64 - e.index)).length = 64 - e.index := by simp; omega
    have hfl : filled.toList = (e.buffered ++ data).take 64 := by
      rw [hfilled, splice_toList (by omega), htake]
      rw [List.take_append, hbl, List.take_of_length_le (by omega : e.buffered.length ≤ 64)]
      rw [List.drop_eq_nil_of_le (by simp; omega), List.append_nil]
      rfl
    have hrest : data.drop (64 - e.index) = (e.buffered ++ data).drop 64 := by
      rw [List.drop_append, hbl, List.drop_eq_nil_of_le (by omega : e.buffered.length ≤ 64), List.nil_append]
    have hrl : (data.drop (64 - e.index)).length = e.index + data.length - 64 := by simp; omega
    obtain ⟨hh, hb⟩ := absorbFrom_spec (e := mid) (index := 0) (data := data.drop (64 - e.index))
      (by omega)
    have hdiv : (e.buffered ++ data).length / 64 = (data.drop (64 - e.index)).length / 64 + 1 := by
      rw [htot, hrl]; omega
    constructor
    · rw [habs, hh, hdiv]
      simp only [compressBlocks]
      rw [← hfl, ← hrest]
    · rw [hbuf ((data.drop (64 - e.index)).length % 64) (by rw [absorb_index, hrl]; omega), habs]
      have hb' := hb
      rw [Nat.zero_add] at hb'
      rw [hb', hdiv, hrest, List.take_zero, List.nil_append, List.drop_drop]
      congr 1
      omega
  · -- no buffered byte, or too few bytes to fill the block
    set mid : Engine := { e with count := e.count + BitVec.ofNat 64 data.length } with hmid
    have habs : e.absorb data = mid.absorbFrom e.index data := by
      unfold Engine.absorb
      rw [if_neg hc]
    by_cases h0 : e.index = 0
    · have hnil : e.buffered = [] := List.eq_nil_of_length_eq_zero (by omega)
      obtain ⟨hh, hb⟩ := absorbFrom_spec (e := mid) (index := e.index) (data := data) (by omega)
      constructor
      · rw [habs, hh, hnil, List.nil_append]
      · rw [hbuf (e.index + data.length % 64) (by rw [absorb_index]; omega), habs, hb, hnil, h0]
        simp
    · have hshort : e.index + data.length < 64 := by omega
      obtain ⟨hh, hb⟩ := absorbFrom_spec (e := mid) (index := e.index) (data := data) (by omega)
      have hd0 : data.length / 64 = 0 := by omega
      have ht0 : (e.buffered ++ data).length / 64 = 0 := by rw [htot]; omega
      constructor
      · rw [habs, hh, hd0, ht0]
        rfl
      · rw [hbuf (e.index + data.length % 64) (by rw [absorb_index]; omega), habs, hb, hd0, ht0]
        simp [Engine.buffered]
        rfl

/-! ### Padding -/

/-- The pad has `padLen` bytes (42_stream.md R131). -/
theorem pad_length {index : Nat} (h : index < 64) : (pad index).length = padLen index := by
  simp only [pad, padLen, List.length_cons, List.length_replicate]
  split <;> omega

@[simp] theorem lengthSuffix_length (count : Dword) : (lengthSuffix count).length = 8 := by
  simp [lengthSuffix, le64bytes]

@[simp] theorem digestBytes_length (h : Chain) : (digestBytes h).length = 16 := rfl

end Sys2Proof.Machine
end

