-- ==== Sys2Proof/Laws/Commands.lean ====
section
/-! SUPPORT. The shapes the commands are made of: for each, everything it can do when it answers a next state. Later proofs
cite these and do not unfold the shapes. -/

namespace Sys2Proof.Machine

/-! ### Ranges and sources -/

/-- `InRange` in words (20_memory.md R50). -/
theorem inRange_iff {memSize addr n : Nat} : inRange memSize addr n = true ↔ n = 0 ∨ addr + n ≤ memSize := by
  simp [inRange]

theorem inRange_eq_false {memSize addr n : Nat} : inRange memSize addr n = false ↔ 0 < n ∧ memSize < addr + n := by
  rw [← Bool.not_eq_true, inRange_iff]
  omega

/-- An access of no bytes is in range anywhere (20_memory.md R50). -/
@[simp] theorem inRange_zero (memSize addr : Nat) : inRange memSize addr 0 = true := by simp [inRange]

theorem sourceBytes_inRange {s : State} {e : Engine} {n : Nat} (h : inRange s.cfg.memSize e.addr.toNat n = true) :
    s.sourceBytes e n = some (s.mem.read e.addr.toNat n) := by simp [State.sourceBytes, h]

theorem sourceBytes_outOfRange {s : State} {e : Engine} {n : Nat} (h : inRange s.cfg.memSize e.addr.toNat n = false) :
    s.sourceBytes e n = none := by simp [State.sourceBytes, h]

/-! ### LD_* and ST_* -/

/-- LD_* on a running instance. -/
theorem loadCommand_running {s : State} {e : Engine} (n : Nat) (value : List Byte → Dword) (h : s.Running e) :
    loadCommand n value s =
      if inRange s.cfg.memSize e.addr.toNat n then
        .next (s.withEngine { e with result := value (s.mem.read e.addr.toNat n) })
      else s.raise e .range := by
  unfold loadCommand
  rw [onCommand_running h]
  by_cases hr : inRange s.cfg.memSize e.addr.toNat n = true
  · rw [sourceBytes_inRange hr, if_pos hr]
  · rw [sourceBytes_outOfRange (by simpa using hr), if_neg hr]

/-- ST_* on a running instance. -/
theorem storeCommand_running {s : State} {e : Engine} (bytesOf : Engine → List Byte) (h : s.Running e) :
    storeCommand bytesOf s =
      if inRange s.cfg.memSize e.addr.toNat (bytesOf e).length then .next (s.storeAtAddr e (bytesOf e))
      else s.raise e .range := by
  unfold storeCommand
  rw [onCommand_running h]

/-- Everything LD_* can do: be ignored, fault RANGE, or write RESULT. -/
theorem loadCommand_next {s t : State} {n : Nat} {value : List Byte → Dword} (h : loadCommand n value s = .next t) :
    ∃ e, s.engines[s.sel]? = some e ∧
      (e.halted = true ∧ t = s ∨
        e.halted = false ∧ inRange s.cfg.memSize e.addr.toNat n = false ∧ t = s.withEngine (e.raise .range) ∨
        e.halted = false ∧ inRange s.cfg.memSize e.addr.toNat n = true ∧
          t = s.withEngine { e with result := value (s.mem.read e.addr.toNat n) }) := by
  obtain ⟨e, he, ⟨hh, rfl⟩ | ⟨hrun, -⟩⟩ := onCommand_next h
  · exact ⟨e, he, .inl ⟨hh, rfl⟩⟩
  · rw [loadCommand_running n value hrun] at h
    refine ⟨e, he, .inr ?_⟩
    split_ifs at h with hr
    · cases h
      exact .inr ⟨hrun.2, hr, rfl⟩
    · cases h
      exact .inl ⟨hrun.2, by simpa using hr, rfl⟩

/-- Everything ST_* can do: be ignored, fault RANGE, or store its bytes at ADDR. -/
theorem storeCommand_next {s t : State} {bytesOf : Engine → List Byte} (h : storeCommand bytesOf s = .next t) :
    ∃ e, s.engines[s.sel]? = some e ∧
      (e.halted = true ∧ t = s ∨
        e.halted = false ∧ inRange s.cfg.memSize e.addr.toNat (bytesOf e).length = false ∧
          t = s.withEngine (e.raise .range) ∨
        e.halted = false ∧ inRange s.cfg.memSize e.addr.toNat (bytesOf e).length = true ∧
          t = s.storeAtAddr e (bytesOf e)) := by
  obtain ⟨e, he, ⟨hh, rfl⟩ | ⟨hrun, -⟩⟩ := onCommand_next h
  · exact ⟨e, he, .inl ⟨hh, rfl⟩⟩
  · rw [storeCommand_running bytesOf hrun] at h
    refine ⟨e, he, .inr ?_⟩
    split_ifs at h with hr
    · cases h
      exact .inr ⟨hrun.2, hr, rfl⟩
    · cases h
      exact .inl ⟨hrun.2, by simpa using hr, rfl⟩

/-! ### The context commands on a running instance -/

/-- The phases in which the context commands are legal (42_stream.md R125). -/
theorem isActive_iff (p : Phase) : p.isActive = true ↔ p = .empty ∨ p = .accum := by
  cases p <;> simp [Phase.isActive]

/-- The phases in which they fault USAGE (60_exceptions.md R155). -/
theorem not_isActive_iff (p : Phase) : ¬ p.isActive = true ↔ p = .uninit ∨ p = .final := by
  cases p <;> simp [Phase.isActive]

/-- INIT on a running instance. -/
theorem execInit_running {s : State} {e : Engine} (h : s.Running e) :
    execInit s = .next (s.withEngine { e with h := iv, count := 0, phase := .empty }) := by
  unfold execInit
  rw [onCommand_running h]

/-- UPDATE on a running instance. -/
theorem execUpdate_running {s : State} {e : Engine} (h : s.Running e) :
    execUpdate s =
      if e.phase.isActive then
        if inRange s.cfg.memSize e.addr.toNat e.len.toNat then
          .next (s.withEngine { e.absorb (s.mem.read e.addr.toNat e.len.toNat) with phase := .accum })
        else s.raise e .range
      else s.raise e .usage := by
  unfold execUpdate
  rw [onCommand_running h]
  by_cases hr : inRange s.cfg.memSize e.addr.toNat e.len.toNat = true
  · rw [sourceBytes_inRange hr, if_pos hr]
  · rw [sourceBytes_outOfRange (by simpa using hr), if_neg hr]

/-- COMPRESS on a running instance. -/
theorem execCompress_running {s : State} {e : Engine} (h : s.Running e) :
    execCompress s =
      if e.phase.isActive then
        if inRange s.cfg.memSize e.addr.toNat 64 then
          .next (s.withEngine { e with h := compress e.h (s.mem.read e.addr.toNat 64) })
        else s.raise e .range
      else s.raise e .usage := by
  unfold execCompress
  rw [onCommand_running h]
  by_cases hr : inRange s.cfg.memSize e.addr.toNat 64 = true
  · rw [sourceBytes_inRange hr, if_pos hr]
  · rw [sourceBytes_outOfRange (by simpa using hr), if_neg hr]

/-- FINALIZE on a running instance. -/
theorem execFinalize_running {s : State} {e : Engine} (h : s.Running e) :
    execFinalize s =
      if e.phase.isActive then
        if inRange s.cfg.memSize e.addr.toNat 16 then
          .next ((s.storeAtAddr e (digestBytes e.close.h)).withEngine e.close)
        else s.raise e .range
      else s.raise e .usage := by
  unfold execFinalize
  rw [onCommand_running h]

/-- MISALIGNED on a running instance. -/
theorem execMisaligned_running {s : State} {e : Engine} (h : s.Running e) :
    execMisaligned s =
      if isPow2 e.len then
        .next (s.withEngine { e with result := if e.addr &&& (e.len - 1) ≠ 0 then 1 else 0 })
      else s.raise e .alignArg := by
  unfold execMisaligned
  rw [onCommand_running h]

/-- FINALIZE changes H, BUF, COUNT and PHASE of its instance and nothing else of it. -/
theorem close_frame (e : Engine) :
    ∃ h buf count, e.close = { e with h := h, buf := buf, count := count, phase := .final } := by
  obtain ⟨h, buf, h1⟩ := absorb_frame e (pad e.index)
  obtain ⟨h', buf', h2⟩ := absorb_frame (e.absorb (pad e.index)) (lengthSuffix e.count)
  exact ⟨h', buf', _, by unfold Engine.close; rw [h2, h1]⟩

/-- After FINALIZE no byte is buffered (42_stream.md R135). -/
theorem close_index (e : Engine) : e.close.index = 0 := by
  have heq : e.close.index = ((e.absorb (pad e.index)).absorb (lengthSuffix e.count)).index := by
    simp only [Engine.index]
    unfold Engine.close
    rfl
  have hlt : e.index < 64 := Nat.mod_lt _ (by decide)
  rw [heq, absorb_index, absorb_index, pad_length hlt]
  simp only [padLen, lengthSuffix_length]
  split <;> omega

/-! ### The number of bytes of each value -/

@[simp] theorem le32bytes_length (v : Word) : (le32bytes v).length = 4 := rfl
@[simp] theorem be32bytes_length (v : Word) : (be32bytes v).length = 4 := rfl
@[simp] theorem le64bytes_length (v : Dword) : (le64bytes v).length = 8 := by simp [le64bytes]
@[simp] theorem be64bytes_length (v : Dword) : (be64bytes v).length = 8 := by simp [be64bytes]

/-! ### Any command -/

/-- On a halted instance every command is ignored (60_exceptions.md R153). -/
theorem exec_halted (i : Instr) {s : State} {e : Engine} (h : s.engines[s.sel]? = some e) (hh : e.halted = true) :
    exec i s = .next s := by
  cases i <;> exact onCommand_halted h hh

/-- The state a command leaves when it runs and raises no fault. -/
def effect (s : State) (e : Engine) : Instr → State
  | .init => s.withEngine { e with h := iv, count := 0, phase := .empty }
  | .update => s.withEngine { e.absorb (s.mem.read e.addr.toNat e.len.toNat) with phase := .accum }
  | .finalize => (s.storeAtAddr e (digestBytes e.close.h)).withEngine e.close
  | .compress => s.withEngine { e with h := compress e.h (s.mem.read e.addr.toNat 64) }
  | .ldLe32 => s.withEngine { e with result := (le32 (s.mem.read e.addr.toNat 4)).setWidth 64 }
  | .ldBe32 => s.withEngine { e with result := (be32 (s.mem.read e.addr.toNat 4)).setWidth 64 }
  | .ldLe64 => s.withEngine { e with result := le64 (s.mem.read e.addr.toNat 8) }
  | .ldBe64 => s.withEngine { e with result := be64 (s.mem.read e.addr.toNat 8) }
  | .stLe32 => s.storeAtAddr e (le32bytes e.valLow)
  | .stBe32 => s.storeAtAddr e (be32bytes e.valLow)
  | .stLe64 => s.storeAtAddr e (le64bytes e.val)
  | .stBe64 => s.storeAtAddr e (be64bytes e.val)
  | .misaligned => s.withEngine { e with result := if e.addr &&& (e.len - 1) ≠ 0 then 1 else 0 }

/-- Every command on a running instance: the fault of 60_exceptions.md R158 taken, or its effect. -/
theorem exec_running (i : Instr) {s : State} {e : Engine} (h : s.Running e) :
    exec i s = match faultOf s.cfg.memSize e i with
      | some c => .next (s.withEngine (e.raise c))
      | none => .next (effect s e i) := by
  cases i
  case init => simp [faultOf, needsOpenPhase, memBytes, exec, execInit_running h, effect]
  case misaligned =>
    have heq : exec .misaligned s = execMisaligned s := rfl
    rw [heq, execMisaligned_running h]
    cases hp : isPow2 e.len <;>
      simp [faultOf, needsOpenPhase, memBytes, hp, effect, State.raise]
  case update =>
    have heq : exec .update s = execUpdate s := rfl
    rw [heq, execUpdate_running h]
    cases hp : e.phase.isActive <;>
      cases hr : inRange s.cfg.memSize e.addr.toNat e.len.toNat <;>
      simp [faultOf, needsOpenPhase, memBytes, hp, hr, effect, State.raise]
  case finalize =>
    have heq : exec .finalize s = execFinalize s := rfl
    rw [heq, execFinalize_running h]
    cases hp : e.phase.isActive <;>
      cases hr : inRange s.cfg.memSize e.addr.toNat 16 <;>
      simp [faultOf, needsOpenPhase, memBytes, hp, hr, effect, State.raise]
  case compress =>
    have heq : exec .compress s = execCompress s := rfl
    rw [heq, execCompress_running h]
    cases hp : e.phase.isActive <;>
      cases hr : inRange s.cfg.memSize e.addr.toNat 64 <;>
      simp [faultOf, needsOpenPhase, memBytes, hp, hr, effect, State.raise]
  case ldLe32 | ldBe32 =>
    refine (loadCommand_running _ _ h).trans ?_
    cases hr : inRange s.cfg.memSize e.addr.toNat 4 <;>
      simp [faultOf, needsOpenPhase, memBytes, hr, effect, State.raise]
  case ldLe64 | ldBe64 =>
    refine (loadCommand_running _ _ h).trans ?_
    cases hr : inRange s.cfg.memSize e.addr.toNat 8 <;>
      simp [faultOf, needsOpenPhase, memBytes, hr, effect, State.raise]
  case stLe32 | stBe32 =>
    refine (storeCommand_running _ h).trans ?_
    cases hr : inRange s.cfg.memSize e.addr.toNat 4 <;>
      simp [faultOf, needsOpenPhase, memBytes, hr, effect, State.raise]
  case stLe64 | stBe64 =>
    refine (storeCommand_running _ h).trans ?_
    cases hr : inRange s.cfg.memSize e.addr.toNat 8 <;>
      simp [faultOf, needsOpenPhase, memBytes, hr, effect, State.raise]

/-- Everything a command can do when it answers a next state: be ignored, take its fault, or have its effect. -/
theorem exec_next {i : Instr} {s t : State} (h : exec i s = .next t) :
    ∃ e, s.engines[s.sel]? = some e ∧
      (e.halted = true ∧ t = s ∨
        s.Running e ∧
          ((∃ c, faultOf s.cfg.memSize e i = some c ∧ t = s.withEngine (e.raise c)) ∨
            faultOf s.cfg.memSize e i = none ∧ t = effect s e i)) := by
  obtain ⟨e, he⟩ : ∃ e, s.engines[s.sel]? = some e := by
    cases i <;> exact (onCommand_next h).imp fun e he => he.1
  refine ⟨e, he, ?_⟩
  by_cases hh : e.halted = true
  · rw [exec_halted i he hh] at h; cases h; exact .inl ⟨hh, rfl⟩
  · have hr : s.Running e := ⟨he, by simpa using hh⟩
    rw [exec_running i hr] at h
    refine .inr ⟨hr, ?_⟩
    split at h
    · next c hc => cases h; exact .inl ⟨c, hc, rfl⟩
    · next hc => cases h; exact .inr ⟨hc, rfl⟩

/-- The effect of a command writes its instance and memory, and of the instance neither the operand registers nor the
fault state. -/
theorem effect_frame {s : State} {e : Engine} (i : Instr) (h : s.engines[s.sel]? = some e) :
    ∃ e' m, effect s e i = { s with engines := s.engines.set s.sel e', mem := m } ∧
      e'.addr = e.addr ∧ e'.len = e.len ∧ e'.val = e.val ∧ e'.halted = e.halted ∧ e'.faultCode = e.faultCode := by
  have hself : s.engines.set s.sel e = s.engines := by
    obtain ⟨hlt, rfl⟩ := List.getElem?_eq_some_iff.mp h
    exact List.set_getElem_self hlt
  cases i
  case stLe32 | stBe32 | stLe64 | stBe64 => exact ⟨e, _, by rw [hself]; rfl, rfl, rfl, rfl, rfl, rfl⟩
  case update =>
    obtain ⟨h, b, hb⟩ := absorb_frame e (s.mem.read e.addr.toNat e.len.toNat)
    exact ⟨_, s.mem, rfl, by rw [hb], by rw [hb], by rw [hb], by rw [hb], by rw [hb]⟩
  case finalize =>
    obtain ⟨h, b, c, hb⟩ := close_frame e
    exact ⟨_, _, rfl, by rw [hb], by rw [hb], by rw [hb], by rw [hb], by rw [hb]⟩
  all_goals exact ⟨_, s.mem, rfl, rfl, rfl, rfl, rfl, rfl⟩

/-! ### CMD writes -/

/-- Everything a CMD write does on an instance that exists: it is ignored, faults, or has its command's effect. -/
theorem issue_exists (v : Dword) {s : State} {e : Engine} (h : s.engines[s.sel]? = some e) :
    e.halted = true ∧ issue v s = .next s ∨
      s.Running e ∧
        ((∃ c, c ≠ .none ∧ issue v s = .next (s.withEngine (e.raise c))) ∨
          ∃ i, decode v = .ok i ∧ faultOf s.cfg.memSize e i = none ∧ issue v s = .next (effect s e i)) := by
  by_cases hh : e.halted = true
  · exact .inl ⟨hh, onCommand_halted h hh⟩
  · have hr : s.Running e := ⟨h, by simpa using hh⟩
    refine .inr ⟨hr, ?_⟩
    unfold issue
    rw [onCommand_running hr]
    cases hd : decode v with
    | error x => exact .inl ⟨.illegal, by simp, rfl⟩
    | ok i =>
      simp only
      rw [exec_running i hr]
      cases hf : faultOf s.cfg.memSize e i with
      | none => exact .inr ⟨i, rfl, hf, rfl⟩
      | some c =>
        refine .inl ⟨c, ?_, rfl⟩
        rintro rfl
        unfold faultOf at hf
        split_ifs at hf <;> cases hf

/-- The same, of a CMD write that answers a next state. -/
theorem issue_next {v : Dword} {s t : State} (h : issue v s = .next t) :
    ∃ e, s.engines[s.sel]? = some e ∧
      (e.halted = true ∧ t = s ∨
        s.Running e ∧
          ((∃ c, c ≠ .none ∧ t = s.withEngine (e.raise c)) ∨
            ∃ i, decode v = .ok i ∧ faultOf s.cfg.memSize e i = none ∧ t = effect s e i)) := by
  obtain ⟨e, he, -⟩ := onCommand_next h
  refine ⟨e, he, ?_⟩
  rcases issue_exists v he with ⟨hh, hi⟩ | ⟨hr, ⟨c, hc, hi⟩ | ⟨i, hd, hf, hi⟩⟩ <;> cases h.symm.trans hi
  · exact .inl ⟨hh, rfl⟩
  · exact .inr ⟨hr, .inl ⟨c, hc, rfl⟩⟩
  · exact .inr ⟨hr, .inr ⟨i, hd, hf, rfl⟩⟩

/-- What no CMD write changes: the other instances and everything but instances and memory. -/
theorem issue_frame {v : Dword} {s t : State} (h : issue v s = .next t) :
    ∃ e' m, t = { s with engines := s.engines.set s.sel e', mem := m } := by
  obtain ⟨e, he, ⟨-, rfl⟩ | ⟨-, ⟨c, -, rfl⟩ | ⟨i, -, -, rfl⟩⟩⟩ := issue_next h
  · obtain ⟨hlt, rfl⟩ := List.getElem?_eq_some_iff.mp he
    exact ⟨_, _, by rw [List.set_getElem_self hlt]⟩
  · exact ⟨_, _, rfl⟩
  · obtain ⟨e', m, heq, -⟩ := effect_frame i he
    exact ⟨e', m, heq⟩

/-! ### Sequences, accesses and steps -/

/-- A sequence answers a next state exactly when both parts do. -/
theorem andThen_next {o : Out} {k : State → Out} {t : State} :
    andThen o k = .next t ↔ ∃ s, o = .next s ∧ k s = .next t := by
  cases o <;> simp [andThen]

/-- What CMD writes to several instances at once leave: the parameters, the run, and every instance not named. -/
theorem issueEach_frame {cmds : List (Nat × Dword)} {s t : State} (h : issueEach cmds s = .next t) :
    t.engines.length = s.engines.length ∧ t.cfg = s.cfg ∧ t.prog = s.prog ∧ t.pos = s.pos ∧ t.obs = s.obs ∧
      ∀ j, j ∉ cmds.map (·.1) → t.engines[j]? = s.engines[j]? := by
  induction cmds generalizing s with
  | nil => cases h; simp
  | cons c cmds ih =>
    obtain ⟨u, hu, h⟩ := andThen_next.mp h
    obtain ⟨e', m, rfl⟩ := issue_frame hu
    obtain ⟨h1, h2, h3, h4, h5, h6⟩ := ih h
    refine ⟨by simpa using h1, h2, h3, h4, h5, fun j hj => ?_⟩
    simp only [List.map_cons, List.mem_cons, not_or] at hj
    rw [h6 j hj.2]
    simp [Ne.symm hj.1]

/-- A register access that answers a next state is to a whole register of an instance that exists. -/
theorem onAccess_next {a : Access} {k : State → Engine → Out} {s t : State} (h : onAccess a k s = .next t) :
    ∃ e, s.engines[a.inst]? = some e ∧ a.off < Config.blockSize ∧ a.bytes = 8 ∧ a.off % 8 = 0 ∧
      k { s with sel := a.inst } e = .next t := by
  unfold onAccess at h
  split at h
  · cases h
  · next e he =>
    split_ifs at h with h1 h2
    exact ⟨e, he, by omega, h2.1, h2.2, h⟩

/-- A register access the spec gives a meaning to reaches its register. -/
theorem onAccess_whole {a : Access} {k : State → Engine → Out} {s : State} {e : Engine}
    (he : s.engines[a.inst]? = some e) (ho : a.off < Config.blockSize) (hb : a.bytes = 8) (hm : a.off % 8 = 0) :
    onAccess a k s = k { s with sel := a.inst } e := by
  have hn : ¬ Config.blockSize ≤ a.off := by omega
  simp [onAccess, he, hn, hb, hm]

/-- At the end of the program a step changes nothing. -/
theorem step_ended {s : State} (h : s.prog = []) : step s = .next s := by simp [step, h]

/-- A step performs the next host operation. -/
theorem step_op {s : State} {op : HostOp} {rest : List HostOp} (h : s.prog = op :: rest) :
    step s = perform op (s.advance rest) := by simp [step, h]

end Sys2Proof.Machine
end

