-- ==== Sys2Proof/Laws/PerInstr.lean ====
section
/-! SUPPORT. Facts about every command as syntax, one lemma for each constructor. -/

/-- RSV, bits 31:8 of every command word, is 0 (30_encoding.md R65), and the word fits the low half of a CMD write (R64). -/
def Sys2Proof.Laws.ReservedBitsZero.Statement (i : Sys2Proof.Instr) : Prop :=
  (Sys2Proof.encode i).extractLsb' 8 24 = 0#24 ∧ (Sys2Proof.encodeCmd i).extractLsb' 32 32 = 0#32

namespace Sys2Proof.Laws.ReservedBitsZero

theorem init : Statement .init := by unfold Statement; decide
theorem update : Statement .update := by unfold Statement; decide
theorem finalize : Statement .finalize := by unfold Statement; decide
theorem compress : Statement .compress := by unfold Statement; decide
theorem ldLe32 : Statement .ldLe32 := by unfold Statement; decide
theorem ldBe32 : Statement .ldBe32 := by unfold Statement; decide
theorem ldLe64 : Statement .ldLe64 := by unfold Statement; decide
theorem ldBe64 : Statement .ldBe64 := by unfold Statement; decide
theorem stLe32 : Statement .stLe32 := by unfold Statement; decide
theorem stBe32 : Statement .stBe32 := by unfold Statement; decide
theorem stLe64 : Statement .stLe64 := by unfold Statement; decide
theorem stBe64 : Statement .stBe64 := by unfold Statement; decide
theorem misaligned : Statement .misaligned := by unfold Statement; decide

end Sys2Proof.Laws.ReservedBitsZero
end

