-- ==== Sys2Proof/Tests/Slice0.lean ====
section
/-! SUPPORT. Tests. Expected values come from spec/: the encodings of 30_encoding.md R66, the examples in the command rules,
and spec/95_test_vectors.md (named V-... and P...). -/

namespace Sys2Proof.Tests
open Sys2Proof Sys2Proof.Machine

/-! ### Helpers -/

/-- An instance after reset and INIT (42_stream.md R127). -/
def inited : Engine := { Engine.reset with h := iv, phase := .empty }

/-- The reset machine with one instance as given, and a memory. -/
def machineOf (e : Engine) (mem : Memory := []) : State := { State.reset with engines := [e], mem := mem }

/-- A memory with the given bytes at an address. -/
def bytesAt (addr : Nat) (bytes : List Byte) : Memory := Memory.write [] addr bytes

/-- The selected instance after an operation. -/
def engineAfter (o : Out) : Option Engine :=
  match o with
  | .next s => s.engines[s.sel]?
  | .fault _ => none
  | .refused _ => none

/-- The state after an operation. -/
def stateAfter (o : Out) : Option State :=
  match o with
  | .next s => some s
  | .fault _ => none
  | .refused _ => none

/-- RESULT after an operation. -/
def resultAfter (o : Out) : Option Dword := (engineAfter o).map (·.result)

/-- STATUS after an operation. -/
def statusAfter (o : Out) : Option Dword := (engineAfter o).map (·.status)

/-- Bytes of memory after an operation. -/
def memAfter (o : Out) (addr n : Nat) : Option (List Byte) :=
  match o with
  | .next s => some (s.mem.read addr n)
  | .fault _ => none
  | .refused _ => none

/-- The reason an operation is refused. -/
def refusalOf (o : Out) : Option Refusal :=
  match o with
  | .next _ => none
  | .fault _ => none
  | .refused r => some r

/-- The fault an operation stops with. -/
def faultStop (o : Out) : Option Fault :=
  match o with
  | .next _ => none
  | .fault r => some r
  | .refused _ => none

/-! ### Decoding: the full command words of 30_encoding.md R66, bit by bit -/

theorem test_decode_init : decodeTableWord 32 0b00000000000000000000000000000001 = some .init := by decide
theorem test_decode_update : decodeTableWord 32 0b00000000000000000000000000000010 = some .update := by decide
theorem test_decode_finalize : decodeTableWord 32 0b00000000000000000000000000000011 = some .finalize := by decide
theorem test_decode_compress : decodeTableWord 32 0b00000000000000000000000000000100 = some .compress := by decide
theorem test_decode_ldLe32 : decodeTableWord 32 0b00000000000000000000000000010000 = some .ldLe32 := by decide
theorem test_decode_ldBe32 : decodeTableWord 32 0b00000000000000000000000000010001 = some .ldBe32 := by decide
theorem test_decode_ldLe64 : decodeTableWord 32 0b00000000000000000000000000010010 = some .ldLe64 := by decide
theorem test_decode_ldBe64 : decodeTableWord 32 0b00000000000000000000000000010011 = some .ldBe64 := by decide
theorem test_decode_stLe32 : decodeTableWord 32 0b00000000000000000000000000010100 = some .stLe32 := by decide
theorem test_decode_stBe32 : decodeTableWord 32 0b00000000000000000000000000010101 = some .stBe32 := by decide
theorem test_decode_stLe64 : decodeTableWord 32 0b00000000000000000000000000010110 = some .stLe64 := by decide
theorem test_decode_stBe64 : decodeTableWord 32 0b00000000000000000000000000010111 = some .stBe64 := by decide
theorem test_decode_misaligned : decodeTableWord 32 0b00000000000000000000000000011000 = some .misaligned := by decide

/-- The illegal values of spec/95_test_vectors.md section 6, each refused by its own ground of R70. -/
theorem test_decode_refuses :
    (decode 0x0).toOption = none ∧ (decode 0x101).toOption = none ∧ (decode 0x100000001).toOption = none
      ∧ (decode 0x5).toOption = none ∧ (decode 0x19).toOption = none ∧ (decode 0xFF).toOption = none := by decide

/-! ### Well-formedness: one ill-formed term for each check -/

theorem test_config_wf : Config.standard.wf := by decide
theorem test_config_no_memory : ¬ Config.wf { memSize := 0, engineBase := [0] } := by decide
theorem test_config_too_much_memory : ¬ Config.wf { memSize := 2 ^ 64 + 1, engineBase := [0] } := by decide
theorem test_config_no_instance : ¬ Config.wf { memSize := 1, engineBase := [] } := by decide
theorem test_config_blocks_overlap : ¬ Config.wf { memSize := 1, engineBase := [0, 0x40] } := by decide
theorem test_access_wf : Access.wf 1 ⟨0, 0x40, 8⟩ := by decide
theorem test_access_no_instance : ¬ Access.wf 1 ⟨1, 0, 8⟩ := by decide
theorem test_access_outside_block : ¬ Access.wf 1 ⟨0, 0x80, 8⟩ := by decide
theorem test_access_narrow : ¬ Access.wf 1 ⟨0, 0, 4⟩ := by decide
theorem test_access_unaligned : ¬ Access.wf 1 ⟨0, 4, 8⟩ := by decide
theorem test_hostop_write_ill : HostOp.wf Config.standard (.write ⟨1, 0, 8⟩ 0) = false := by decide
theorem test_hostop_read_ill : HostOp.wf Config.standard (.read ⟨0, 4, 8⟩) = false := by decide
theorem test_hostop_bus_ill : HostOp.wf Config.standard (.busWrite 0x80 8 0) = false ∧
    HostOp.wf Config.standard (.busRead 0x08 4) = false := by decide
theorem test_hostop_group_ill : HostOp.wf Config.standard (.issueTogether [(0, 1), (0, 1)]) = false ∧
    HostOp.wf Config.standard (.issueTogether [(1, 1)]) = false := by decide
theorem test_hostop_reset_ill : HostOp.wf Config.standard (.reset 1) = false := by decide
theorem test_hostop_memory_ill : HostOp.wf Config.standard (.hostStore 0xFFF [1, 2]) = false ∧
    HostOp.wf Config.standard (.hostLoad 0x1000) = false := by decide
theorem test_asm_wr_read_only_ill : AsmLine.wf (.wr .status 0) = false := by decide

/-! ### Byte assembly (40_byteorder.md R80 to R83) -/

/-- V-B1, offset 0. -/
theorem test_assemble_bytes : le32 [1, 2, 3, 4] = 0x04030201 ∧ be32 [1, 2, 3, 4] = 0x01020304 ∧
    le64 [1, 2, 3, 4, 5, 6, 7, 8] = 0x0807060504030201 ∧ be64 [1, 2, 3, 4, 5, 6, 7, 8] = 0x0102030405060708 := by
  decide

/-- V-B2. -/
theorem test_bytes_of : le32bytes 0x11223344 = [0x44, 0x33, 0x22, 0x11] ∧ be32bytes 0x11223344 = [0x11, 0x22, 0x33, 0x44] ∧
    le64bytes 0xAABBCCDD11223344 = [0x44, 0x33, 0x22, 0x11, 0xDD, 0xCC, 0xBB, 0xAA] ∧
    be64bytes 0xAABBCCDD11223344 = [0xAA, 0xBB, 0xCC, 0xDD, 0x11, 0x22, 0x33, 0x44] := by decide

/-! ### Compression (95_test_vectors.md sections 2 and 3) -/

theorem test_round_functions : f1 0x12345678 0x9ABCDEF0 0x0FEDCBA9 = 0x1FFDDFF1 ∧
    f2 0x12345678 0x9ABCDEF0 0x0FEDCBA9 = 0x1ABCDEF8 ∧ f3 0x12345678 0x9ABCDEF0 0x0FEDCBA9 = 0x87654321 := by decide

theorem test_rotl : rotl32 0x80000001 3 = 0x0000000C ∧ rotl32 0x12345678 19 = 0xB3C091A2 ∧
    rotl32 0xFFFFFFFF 15 = 0xFFFFFFFF := by decide

/-- V-C3, steps 0 and 1. -/
theorem test_first_steps :
    mixStep .r1 (messageWords (0x80 :: List.replicate 63 0)) iv 0 = ⟨0x000003F8, 0xEFCDAB89, 0x98BADCFE, 0x10325476⟩ ∧
    mixStep .r1 (messageWords (0x80 :: List.replicate 63 0)) ⟨0x000003F8, 0xEFCDAB89, 0x98BADCFE, 0x10325476⟩ 1
      = ⟨0x000003F8, 0xEFCDAB89, 0x98BADCFE, 0x769A0254⟩ := by decide

/-- V-C2, padded "abc": after round 1 and, from there, after round 2 and after round 3. -/
theorem test_rounds_abc :
    let xs := messageWords ([0x61, 0x62, 0x63, 0x80] ++ List.replicate 52 0 ++ le64bytes 24)
    mixRound .r1 xs iv = ⟨0xA299A540, 0xDA717395, 0x24BAADCB, 0x04E19293⟩ ∧
    mixRound .r2 xs ⟨0xA299A540, 0xDA717395, 0x24BAADCB, 0x04E19293⟩
      = ⟨0x7296594C, 0x8E531B8F, 0x3DD42422, 0x4E7E1748⟩ ∧
    mixRound .r3 xs ⟨0x7296594C, 0x8E531B8F, 0x3DD42422, 0x4E7E1748⟩
      = ⟨0x12BC25A3, 0x630A7626, 0x4F4FE461, 0x8D405204⟩ := by decide +kernel

/-- V-C1: bytes 0x00 .. 0x3F from IV, and zeros(64) from 0. -/
theorem test_compress_blocks :
    compress iv ((List.range 64).map (BitVec.ofNat 8)) = ⟨0x4ECABFD4, 0xA26EF3A6, 0xC90C1563, 0xDB599A46⟩ ∧
    compress ⟨0, 0, 0, 0⟩ (List.replicate 64 0) = ⟨0x33C84836, 0xC19152D1, 0xE762D9DF, 0xA20027BD⟩ := by
  decide +kernel

/-- V-L3: digest("abc"). -/
theorem test_md4_abc : md4 [0x61, 0x62, 0x63] = [0xa4, 0x48, 0x01, 0x7a, 0xaf, 0x21, 0xd8, 0x52, 0x5f, 0xc1, 0x0a, 0xe8,
    0x7a, 0xa6, 0x72, 0x9d] := by decide +kernel

/-- V-S2: MD4("a" * 56), the padding that spills into a second block. -/
theorem test_md4_56 : md4 (List.replicate 56 0x61) = [0xd5, 0xf9, 0xa9, 0xe9, 0x25, 0x70, 0x77, 0xa5, 0xf0, 0x8b, 0x0b,
    0x92, 0xf3, 0x48, 0xb0, 0xad] := by decide +kernel

/-! ### The commands -/

/-- R127's example: from reset, INIT gives H01, H23, COUNT and STATUS. -/
theorem test_init : (engineAfter (exec .init State.reset)).map
    (fun e => (e.readReg .h01, e.readReg .h23, e.count, e.status)) =
      some (0xEFCDAB8967452301, 0x1032547698BADCFE, 0, 0x1) := by decide

/-- R129's example: INIT, then UPDATE of "abc". -/
theorem test_update_abc :
    (engineAfter (exec .update (machineOf { inited with addr := 0x100, len := 3 } (bytesAt 0x100 [0x61, 0x62, 0x63])))).map
      (fun e => (e.count, e.h, e.status, e.buf.toList.take 3)) = some (3, iv, 0x2, [0x61, 0x62, 0x63]) := by
  decide +kernel

/-- V-S4, step 4: one byte fills the buffer, and the block is compressed. -/
theorem test_update_fills :
    (engineAfter (exec .update (machineOf
      { inited with phase := .accum, count := 63, addr := 0x3F, len := 1,
                    buf := Vector.ofFn fun j => BitVec.ofNat 8 j.val } (bytesAt 0x3F [0x3F])))).map
      (fun e => (e.count, e.h, e.status)) =
        some (64, ⟨0x4ECABFD4, 0xA26EF3A6, 0xC90C1563, 0xDB599A46⟩, 0x2) := by decide +kernel

/-- V-S1: INIT, then FINALIZE at 0x200. -/
theorem test_finalize_empty :
    memAfter (exec .finalize (machineOf { inited with addr := 0x200 })) 0x200 16 =
      some [0x31, 0xd6, 0xcf, 0xe0, 0xd1, 0x6a, 0xe9, 0x31, 0xb7, 0x3c, 0x59, 0xd7, 0xe0, 0xc0, 0x89, 0xc0] := by
  decide +kernel

/-- V-S1: COUNT, STATUS, H01 and H23 after it. -/
theorem test_finalize_context :
    (engineAfter (exec .finalize (machineOf { inited with addr := 0x200 }))).map
      (fun e => (e.count, e.status, e.readReg .h01, e.readReg .h23)) =
        some (64, 0x3, 0x31E96AD1E0CFD631, 0xC089C0E0D7593CB7) := by decide +kernel

/-- P6: raw COMPRESS. -/
theorem test_compress :
    (engineAfter (exec .compress (machineOf { inited with addr := 0x100 } (bytesAt 0x100 [0x80])))).map
      (fun e => (e.readReg .h01, e.readReg .h23, e.count, e.status)) =
        some (0x31E96AD1E0CFD631, 0xC089C0E0D7593CB7, 0, 0x1) := by decide +kernel

/-- The memory of V-B1, and ADDR = 0x103: a misaligned address. -/
def loadMachine : State :=
  machineOf { Engine.reset with addr := 0x103 } (bytesAt 0x100 ((List.range 15).map fun i => BitVec.ofNat 8 (i + 1)))

theorem test_ldLe32 : resultAfter (exec .ldLe32 loadMachine) = some 0x0000000007060504 := by decide
theorem test_ldBe32 : resultAfter (exec .ldBe32 loadMachine) = some 0x0000000004050607 := by decide
theorem test_ldLe64 : resultAfter (exec .ldLe64 loadMachine) = some 0x0B0A090807060504 := by decide
theorem test_ldBe64 : resultAfter (exec .ldBe64 loadMachine) = some 0x0405060708090A0B := by decide

/-- V-B2's VAL, at a misaligned address. -/
def storeMachine : State := machineOf { Engine.reset with addr := 0x301, val := 0xAABBCCDD11223344 }

theorem test_stLe32 : memAfter (exec .stLe32 storeMachine) 0x300 6 = some [0, 0x44, 0x33, 0x22, 0x11, 0] := by decide
theorem test_stBe32 : memAfter (exec .stBe32 storeMachine) 0x300 6 = some [0, 0x11, 0x22, 0x33, 0x44, 0] := by decide
theorem test_stLe64 : memAfter (exec .stLe64 storeMachine) 0x301 8 =
    some [0x44, 0x33, 0x22, 0x11, 0xDD, 0xCC, 0xBB, 0xAA] := by decide
theorem test_stBe64 : memAfter (exec .stBe64 storeMachine) 0x301 8 =
    some [0xAA, 0xBB, 0xCC, 0xDD, 0x11, 0x22, 0x33, 0x44] := by decide

/-- V-B4. -/
theorem test_misaligned :
    [(0x305, 4), (0x300, 4), (0x305, 1), (0x380, 0x100), (0x8000000000000000, 0x8000000000000000),
      (1, 0x8000000000000000)].map
      (fun p : Dword × Dword => resultAfter (exec .misaligned (machineOf { Engine.reset with addr := p.1, len := p.2 })))
      = [some 1, some 0, some 0, some 1, some 0, some 1] := by decide

/-- V-B4: the alignments 3 and 0. -/
theorem test_misaligned_faults :
    [3, 0].map (fun k : Dword => statusAfter (exec .misaligned (machineOf { Engine.reset with addr := 0x300, len := k })))
      = [some 0x304, some 0x304] := by decide

/-! ### Faults: rows of 95_test_vectors.md section 6 -/

theorem test_illegal : [0x0, 0x101, 0x100000001, 0x5].map (fun v : Dword => statusAfter (issue v State.reset))
    = [some 0x104, some 0x104, some 0x104, some 0x104] := by decide

theorem test_usage_uninit : statusAfter (exec .update (machineOf { Engine.reset with addr := 0x100 })) = some 0x204 := by
  decide

theorem test_usage_before_range :
    statusAfter (exec .finalize (machineOf { Engine.reset with addr := 0xFFFFFF })) = some 0x204 := by decide

theorem test_range_edge :
    [0xFFD, 0xFFC, 0xFFFFFFFFFFFFFFFE].map
      (fun a : Dword => statusAfter (exec .ldLe32 (machineOf { Engine.reset with addr := a })))
      = [some 0x404, some 0x0, some 0x404] := by decide

theorem test_range_context :
    (statusAfter (exec .compress (machineOf { inited with addr := 0xFC1 })),
      statusAfter (exec .finalize (machineOf { inited with addr := 0xFF1 })),
      statusAfter (exec .update (machineOf { inited with addr := 0xFF8, len := 9 })),
      statusAfter (exec .update (machineOf { inited with addr := 0xFFFFFFFFFFFFFFFF, len := 0 })))
      = (some 0x405, some 0x405, some 0x405, some 0x2) := by decide +kernel

/-- P5: UPDATE after FINALIZE faults USAGE. -/
theorem test_usage_final :
    statusAfter (exec .update (machineOf { inited with phase := .final, count := 64, addr := 0x100, len := 1 }))
      = some 0x207 := by decide

/-- P5: INIT is ignored while halted. -/
theorem test_halted_ignores :
    stateAfter (issue 1 (machineOf { inited with halted := true, faultCode := .usage })) =
      some (machineOf { inited with halted := true, faultCode := .usage }) := by decide

/-! ### The host interface -/

/-- A table word placed by `withFetchWord` is run by the next step. -/
theorem test_step_runs_word : statusAfter (step (State.reset.withFetchWord 32 0x1)) = some 0x1 := by decide

/-- `wr ADDR, 0x100`: `W 0x08=0x100` (30_encoding.md R77). -/
theorem test_write_addr :
    (engineAfter (perform (.write ⟨0, 0x08, 8⟩ 0x100) State.reset)).map (·.addr) = some 0x100 := by decide

/-- `rd STATUS` after a fault: the value is an observation. -/
theorem test_read_status :
    (match perform (.read ⟨0, 0x28, 8⟩) (machineOf { inited with halted := true, faultCode := .range }) with
      | .next s => some s.obs
      | .fault _ => none
      | .refused _ => none) = some [0x405] := by decide

/-- 10_state.md R38: a partial access is refused; a write to a read-only register is ignored. -/
theorem test_partial_and_read_only :
    refusalOf (perform (.write ⟨0, 0x08, 4⟩ 1) State.reset) = some .partialAccess ∧
    refusalOf (perform (.read ⟨0, 0x0C, 8⟩) State.reset) = some .partialAccess ∧
    refusalOf (perform (.read ⟨0, 0x80, 8⟩) State.reset) = some .outsideBlock ∧
    engineAfter (perform (.write ⟨0, 0x20, 8⟩ 7) State.reset) = some Engine.reset := by decide

/-- A machine of two instances, their blocks at 0x1000 and 0x2000. -/
def twoInstances (e e' : Engine) : State :=
  { State.reset with cfg := { memSize := 0x1000, engineBase := [0x1000, 0x2000] }, engines := [e, e'] }

/-- 20_memory.md R60: two commands at once. A load and a store of one byte in common race; two loads do not. -/
theorem test_race :
    refusalOf (perform (.issueTogether [(0, 0x10), (1, 0x14)])
      (twoInstances { Engine.reset with addr := 0x10 } { Engine.reset with addr := 0x13 })) = some .race ∧
    refusalOf (perform (.issueTogether [(0, 0x10), (1, 0x10)])
      (twoInstances { Engine.reset with addr := 0x10 } { Engine.reset with addr := 0x13 })) = none ∧
    refusalOf (perform (.issueTogether [(0, 0x10), (1, 0x14)])
      (twoInstances { Engine.reset with addr := 0x10 } { Engine.reset with addr := 0x14 })) = none ∧
    refusalOf (perform (.issueTogether [(1, 0x10), (1, 0x14)])
      (twoInstances Engine.reset Engine.reset)) = some .sameInstanceTwice := by decide

/-- 10_state.md R33: the register at ENGINE_BASE[1] + 0x08 is ADDR of instance 1. -/
theorem test_bus_write :
    (engineAfter (perform (.busWrite 0x2008 8 5) (twoInstances Engine.reset Engine.reset))).map (·.addr) = some 5 ∧
    refusalOf (perform (.busRead 0x3000 8) (twoInstances Engine.reset Engine.reset)) = some .noRegisterBlock := by
  decide

/-- 70_reset_and_hazards.md R175: reset clears a fault with the context, and leaves memory. -/
theorem test_reset_event :
    stateAfter (perform (.reset 0) (machineOf { inited with halted := true, faultCode := .usage, addr := 4 } [(3, 7)])) =
      some (machineOf Engine.reset [(3, 7)]) := by decide

/-- The host's own memory accesses. -/
theorem test_host_memory :
    memAfter (perform (.hostStore 0xFFE [1, 2]) State.reset) 0xFFE 2 = some [1, 2] ∧
    faultStop (perform (.hostStore 0xFFF [1, 2]) State.reset) = some .hostAddressOutOfMemory ∧
    faultStop (perform (.hostLoad 0x1000) State.reset) = some .hostAddressOutOfMemory := by decide

/-! ### The assembler (30_encoding.md R74 to R77) -/

/-- R77's example: `update 0x100, 3` is `W 0x08=0x100`, `W 0x10=0x3`, `W 0x00=0x00000002`. -/
theorem test_listing :
    (parseLine "start: Update 0x100, 3 ; the message".toList).map (fun l => (l.toList.flatMap expand).map
      (fun x => (lineOp 0 x).bind listing)) =
      some [some "W 0x08=0x100".toList, some "W 0x10=0x3".toList, some "W 0x00=0x00000002".toList] := by decide

/-- R75: blank lines, comments, decimal and hex, `md4`, and lines that are none. -/
theorem test_parse :
    parseProgram "; P1\n\nmd4 0x100, 3, 0x200\nrd status".toList = some [.md4 0x100 3 0x200, .rd .status] ∧
    parseProgram "wr status, 1".toList = none ∧ parseProgram "wr addr, 0x10000000000000000".toList = none ∧
    parseProgram "ld_le32 5".toList = none := by decide

/-- P1's program text (md4 of "abc"), assembled and listed: six host operations. -/
theorem test_md4_expansion :
    assemble 0 [.md4 0x100 3 0x200] = some [cmdWrite 0 1, .write ⟨0, 0x08, 8⟩ 0x100, .write ⟨0, 0x10, 8⟩ 3,
      cmdWrite 0 2, .write ⟨0, 0x08, 8⟩ 0x200, cmdWrite 0 3] := by decide

/-! ### Witnesses: for each obligation with hypotheses, states and operands that meet them together, one for each clause

The addresses lie on both sides of MEM_SIZE = 0x1000. -/

/-- An instance in EMPTY. -/
def emptyAt (addr len : Dword) : Engine := { inited with addr := addr, len := len }

/-- An instance in ACCUM that has counted three bytes. -/
def accumAt (addr len : Dword) : Engine := { inited with addr := addr, len := len, phase := .accum, count := 3 }

/-- A halted instance. -/
def haltedEngine : Engine := { inited with halted := true, faultCode := .usage }

theorem witness_DecodeEncodeAgree : decode 0x00000018 = .ok .misaligned := by decide

/-- Each ground of R70 alone, and a legal value. -/
theorem witness_IllegalWordFaults : State.reset.Running Engine.reset ∧
    (0x100000001 : Dword).toNat / 2 ^ 32 ≠ 0 ∧
    (0x00000101 : Dword).toNat / 2 ^ 8 % 2 ^ 24 ≠ 0 ∧
    (0x00000019 : Dword).toNat % 2 ^ 8 ∉ [0x01, 0x02, 0x03, 0x04, 0x10, 0x11, 0x12, 0x13, 0x14, 0x15, 0x16, 0x17, 0x18] ∧
    ¬ ((0x00000018 : Dword).toNat / 2 ^ 32 ≠ 0 ∨ (0x00000018 : Dword).toNat / 2 ^ 8 % 2 ^ 24 ≠ 0 ∨
      (0x00000018 : Dword).toNat % 2 ^ 8 ∉
        [0x01, 0x02, 0x03, 0x04, 0x10, 0x11, 0x12, 0x13, 0x14, 0x15, 0x16, 0x17, 0x18]) := by decide

theorem witness_StepRunsDecodedCommand :
    (State.reset.withFetchWord 32 0x1).prog = .write { inst := 0, off := 0x00, bytes := 8 } 1 :: [] ∧
      (State.reset.withFetchWord 32 0x1).engines[0]? = some Engine.reset ∧ decode 1 = .ok .init := by decide

/-- With an operation left, and with none. -/
theorem witness_PositionAdvancesByOne : (∃ t, step (State.reset.withFetchWord 32 0x1) = .next t) ∧
    (State.reset.withFetchWord 32 0x1).prog ≠ [] ∧ step State.reset = .next State.reset ∧ State.reset.prog = [] :=
  ⟨⟨_, rfl⟩, by decide, rfl, rfl⟩

theorem witness_EveryCommandCompletes : State.reset.sel < State.reset.engines.length := by decide

theorem witness_ResetSetsEveryRegister : Engine.reset ∈ State.reset.engines ∧
    0 < (machineOf haltedEngine).engines.length ∧
    ({ machineOf haltedEngine with prog := [.reset 0] } : State).prog = .reset 0 :: [] := by decide

/-- From a machine that is not as reset left it. -/
theorem witness_StepKeepsInvariant : State.Inv (machineOf (accumAt 0xFF0 16) [(0, 1)]) ∧
    (machineOf (accumAt 0xFF0 16) [(0, 1)]).prog = [] ∧
    State.Inv ((machineOf (accumAt 0xFF0 16) [(0, 1)]).withFetchWord 32 0x3) ∧
    ∃ t, step ((machineOf (accumAt 0xFF0 16) [(0, 1)]).withFetchWord 32 0x3) = .next t :=
  ⟨by decide, rfl, by decide, ⟨_, rfl⟩⟩

/-- USAGE (in UNINIT, and in FINAL with a range that fails too), ALIGN_ARG, RANGE one byte past each command's last legal
address, and no fault at that address. -/
theorem witness_FaultsOfEachCommand :
    (machineOf Engine.reset).Running Engine.reset ∧ Engine.reset.phase = .uninit ∧
    (machineOf { inited with phase := .final, addr := 0xFF1 }).Running { inited with phase := .final, addr := 0xFF1 } ∧
    (¬ ∃ j, j < 64 ∧ (0 : Dword).toNat = 2 ^ j) ∧ (∃ j, j < 64 ∧ (0x8000000000000000 : Dword).toNat = 2 ^ j) ∧
    (machineOf (emptyAt 0xFF0 0x11)).Running (emptyAt 0xFF0 0x11) ∧ (emptyAt 0xFF0 0x11).phase = .empty ∧
    0 < (0x11 : Dword).toNat ∧ 0x1000 < (0xFF0 : Dword).toNat + (0x11 : Dword).toNat ∧
    ¬ 0x1000 < (0xFF0 : Dword).toNat + (0x10 : Dword).toNat ∧
    0x1000 < (0xFF1 : Dword).toNat + 16 ∧ ¬ 0x1000 < (0xFF0 : Dword).toNat + 16 ∧
    0x1000 < (0xFC1 : Dword).toNat + 64 ∧ ¬ 0x1000 < (0xFC0 : Dword).toNat + 64 ∧
    0x1000 < (0xFFD : Dword).toNat + 4 ∧ ¬ 0x1000 < (0xFFC : Dword).toNat + 4 ∧
    0x1000 < (0xFF9 : Dword).toNat + 8 ∧ ¬ 0x1000 < (0xFF8 : Dword).toNat + 8 := by decide

/-- The lowest ADDR of each width whose last byte is at 2^64, the ADDR below it, and UPDATE by its LEN; the largest MEM_SIZE. -/
theorem witness_AddressesDoNotWrap :
    State.Running { machineOf (emptyAt 0xFFFFFFFFFFFFFFC1 64) with cfg := { memSize := 2 ^ 64, engineBase := [0] } }
      (emptyAt 0xFFFFFFFFFFFFFFC1 64) ∧
    (emptyAt 0xFFFFFFFFFFFFFFC1 64).phase = .empty ∧
    2 ^ 64 < (0xFFFFFFFFFFFFFFC1 : Dword).toNat + (64 : Dword).toNat ∧
    2 ^ 64 < (0xFFFFFFFFFFFFFFC1 : Dword).toNat + 64 ∧ ¬ 2 ^ 64 < (0xFFFFFFFFFFFFFFC0 : Dword).toNat + 64 ∧
    2 ^ 64 < (0xFFFFFFFFFFFFFFF1 : Dword).toNat + 16 ∧ ¬ 2 ^ 64 < (0xFFFFFFFFFFFFFFF0 : Dword).toNat + 16 ∧
    2 ^ 64 < (0xFFFFFFFFFFFFFFF9 : Dword).toNat + 8 ∧ ¬ 2 ^ 64 < (0xFFFFFFFFFFFFFFF8 : Dword).toNat + 8 ∧
    2 ^ 64 < (0xFFFFFFFFFFFFFFFD : Dword).toNat + 4 ∧ ¬ 2 ^ 64 < (0xFFFFFFFFFFFFFFFC : Dword).toNat + 4 := by decide

/-- Two machines that differ in H and in memory; COMPRESS on both, out of range and in range. -/
theorem witness_FaultsIgnoreData :
    (machineOf (emptyAt 0xFC1 0)).Running (emptyAt 0xFC1 0) ∧
    (machineOf { emptyAt 0xFC1 0 with h := ⟨1, 2, 3, 4⟩ } [(5, 6)]).Running { emptyAt 0xFC1 0 with h := ⟨1, 2, 3, 4⟩ } ∧
    (∃ t, issue 4 (machineOf (emptyAt 0xFC1 0)) = .next t ∧ t.engines[0]? = some ((emptyAt 0xFC1 0).raise .range)) ∧
    (∃ t f, issue 4 (machineOf { emptyAt 0xFC1 0 with h := ⟨1, 2, 3, 4⟩ } [(5, 6)]) = .next t ∧ t.engines[0]? = some f) ∧
    ∃ t f, issue 4 (machineOf (emptyAt 0xFC0 0)) = .next t ∧ t.engines[0]? = some f :=
  ⟨by decide, by decide, ⟨_, rfl, rfl⟩, ⟨_, _, rfl, rfl⟩, ⟨_, _, rfl, rfl⟩⟩

/-- The halted machine about to perform INIT, and about to perform a reset of another instance. -/
theorem witness_HaltedIgnoresCommandWrites :
    ((machineOf haltedEngine).withFetchWord 32 0x1).prog = .write { inst := 0, off := 0x00, bytes := 8 } 1 :: [] ∧
    ((machineOf haltedEngine).withFetchWord 32 0x1).engines[0]? = some haltedEngine ∧ haltedEngine.halted = true := by
  decide

theorem witness_OnlyResetLeavesHalted :
    (twoInstances haltedEngine inited).engines[0]? = some haltedEngine ∧ haltedEngine.halted = true ∧
    (∃ t, step { twoInstances haltedEngine inited with prog := [.reset 1] } = .next t) ∧
    (∃ t, step { twoInstances haltedEngine inited with prog := [.write ⟨0, 0x08, 8⟩ 5] } = .next t) :=
  ⟨rfl, rfl, ⟨_, rfl⟩, ⟨_, rfl⟩⟩

theorem witness_HaltedRunNeverSucceeds :
    (∀ op ∈ ((machineOf haltedEngine).withFetchWord 32 0x1).prog, op ≠ .reset 0) ∧
    ∃ t, Host.Core.run Sys2Proof.core 2 ((machineOf haltedEngine).withFetchWord 32 0x1) = .next t ∧ t.ended = true :=
  ⟨by decide, ⟨_, rfl, rfl⟩⟩

/-- The last legal address and the first illegal one, for 4 and for 8 bytes; ADDR at the top of the address space. -/
theorem witness_LittleEndianLoads :
    (machineOf { Engine.reset with addr := 0xFFC }).Running { Engine.reset with addr := 0xFFC } ∧
    (0xFFC : Dword).toNat + 4 ≤ 0x1000 ∧ 0x1000 < (0xFFD : Dword).toNat + 4 ∧
    (0xFF8 : Dword).toNat + 8 ≤ 0x1000 ∧ 0x1000 < (0xFFFFFFFFFFFFFFFF : Dword).toNat + 8 := by decide

theorem witness_BigEndianLoads :
    (machineOf { Engine.reset with addr := 0xFF8 }).Running { Engine.reset with addr := 0xFF8 } ∧
    (0xFFC : Dword).toNat + 4 ≤ 0x1000 ∧ 0x1000 < (0xFFD : Dword).toNat + 4 ∧
    (0xFF8 : Dword).toNat + 8 ≤ 0x1000 ∧ 0x1000 < (0xFF9 : Dword).toNat + 8 := by decide

theorem witness_LittleEndianStores :
    (machineOf { Engine.reset with addr := 0xFF8 } [(0xFFF, 1)]).Running { Engine.reset with addr := 0xFF8 } ∧
    (machineOf { Engine.reset with addr := 0xFF8 } [(0xFFF, 1)]).mem.wf ∧
    (0xFFC : Dword).toNat + 4 ≤ 0x1000 ∧ 0x1000 < (0xFFD : Dword).toNat + 4 ∧
    (0xFF8 : Dword).toNat + 8 ≤ 0x1000 ∧ 0x1000 < (0xFF9 : Dword).toNat + 8 := by decide

theorem witness_BigEndianStores :
    (machineOf { Engine.reset with addr := 0xFFC } [(0xFFB, 1)]).Running { Engine.reset with addr := 0xFFC } ∧
    (machineOf { Engine.reset with addr := 0xFFC } [(0xFFB, 1)]).mem.wf ∧
    (0xFFC : Dword).toNat + 4 ≤ 0x1000 ∧ 0x1000 < (0xFFD : Dword).toNat + 4 ∧
    (0xFF8 : Dword).toNat + 8 ≤ 0x1000 ∧ 0x1000 < (0xFF9 : Dword).toNat + 8 := by decide

theorem witness_StoreThenLoadReturnsValue :
    (machineOf { Engine.reset with addr := 0xFF8, val := 7 }).Running { Engine.reset with addr := 0xFF8, val := 7 } ∧
    (machineOf { Engine.reset with addr := 0xFF8, val := 7 }).mem.wf ∧
    (0xFF8 : Dword).toNat + (if Width.w64 = .w64 then 8 else 4) ≤ 0x1000 ∧
    (0xFFC : Dword).toNat + (if Width.w32 = .w64 then 8 else 4) ≤ 0x1000 := by decide

/-- Both clauses: ADDR as it was, and moved on by 4. -/
theorem witness_MixedWidthSeesSameBytes :
    storeMachine.Running { Engine.reset with addr := 0x301, val := 0xAABBCCDD11223344 } ∧ storeMachine.mem.wf ∧
    storeMachine.cfg.memSize ≤ 2 ^ 64 ∧ (0x301 : Dword).toNat + 8 ≤ storeMachine.cfg.memSize ∧
    (∃ t, exec .stLe64 storeMachine = .next t) ∧ Engine.reset.halted = false ∧ (0x305 : Dword) = 0x301 + 4 :=
  ⟨by decide, by decide, by decide, by decide, ⟨_, rfl⟩, rfl, by decide⟩

theorem witness_ByteAssemblyRoundTrips :
    ([1, 2, 3, 4] : List Byte).length = 4 ∧ ([1, 2, 3, 4, 5, 6, 7, 8] : List Byte).length = 8 := by decide

/-- LEN = 1, 2^63; and 0, 3. -/
theorem witness_MisalignedAnswersMultiple :
    (machineOf (emptyAt 0xFFFFFFFFFFFFFFFF 1)).Running (emptyAt 0xFFFFFFFFFFFFFFFF 1) ∧
    (∃ j, j < 64 ∧ (1 : Dword).toNat = 2 ^ j) ∧ (∃ j, j < 64 ∧ (0x8000000000000000 : Dword).toNat = 2 ^ j) ∧
    (¬ ∃ j, j < 64 ∧ (0 : Dword).toNat = 2 ^ j) ∧ ¬ ∃ j, j < 64 ∧ (3 : Dword).toNat = 2 ^ j := by decide

theorem witness_RotateMovesBits : 1 ≤ 3 ∧ 3 ≤ 31 ∧ 0 < 32 ∧ 15 < 16 ∧
    (rotl32 0x20000000 3).getLsbD 0 = true := by decide

/-- In EMPTY at the last legal address and one past it; in ACCUM; in UNINIT and FINAL. -/
theorem witness_CompressCommandMixesBlock :
    (machineOf (emptyAt 0xFC0 0)).Running (emptyAt 0xFC0 0) ∧ (emptyAt 0xFC0 0).phase = .empty ∧
    (0xFC0 : Dword).toNat + 64 ≤ 0x1000 ∧ 0x1000 < (0xFC1 : Dword).toNat + 64 ∧
    (machineOf (accumAt 0 0)).Running (accumAt 0 0) ∧ (accumAt 0 0).phase = .accum ∧
    (machineOf Engine.reset).Running Engine.reset ∧ Engine.reset.phase = .uninit ∧
    (machineOf { inited with phase := .final }).Running { inited with phase := .final } := by decide

/-- INIT runs in every phase. -/
theorem witness_InitLoadsInitialValue : (machineOf Engine.reset).Running Engine.reset ∧
    (machineOf (accumAt 0 0)).Running (accumAt 0 0) ∧
    (machineOf { inited with phase := .final }).Running { inited with phase := .final } := by decide

/-- In range up to the last byte, and LEN = 0 beyond it. -/
theorem witness_UpdateAbsorbsMemoryBytes :
    (machineOf (accumAt 0xFC0 64)).Running (accumAt 0xFC0 64) ∧ (accumAt 0xFC0 64).phase = .accum ∧
    (accumAt 0xFC0 64).addr.toNat + (accumAt 0xFC0 64).len.toNat ≤ 0x1000 ∧
    (machineOf (emptyAt 0xFFFFFFFFFFFFFFFF 0)).Running (emptyAt 0xFFFFFFFFFFFFFFFF 0) ∧
    (emptyAt 0xFFFFFFFFFFFFFFFF 0).len.toNat = 0 := by decide

theorem witness_ZeroLengthUpdateOnlySetsPhase :
    (machineOf (emptyAt 0xFFFFFFFFFFFFFFFF 0)).Running (emptyAt 0xFFFFFFFFFFFFFFFF 0) ∧
    (emptyAt 0xFFFFFFFFFFFFFFFF 0).phase = .empty ∧ (emptyAt 0xFFFFFFFFFFFFFFFF 0).len = 0 := by decide

/-- COUNT mod 64 on both sides of 56. -/
theorem witness_FinalizeWritesDigest :
    (machineOf { accumAt 0xFF0 0 with count := 55 }).Running { accumAt 0xFF0 0 with count := 55 } ∧
    (machineOf { accumAt 0xFF0 0 with count := 56 }).Running { accumAt 0xFF0 0 with count := 56 } ∧
    (accumAt 0xFF0 0).phase = .accum ∧ (machineOf (accumAt 0xFF0 0)).mem.wf ∧
    (accumAt 0xFF0 0).addr.toNat + 16 ≤ 0x1000 ∧ (55 : Dword).toNat % 64 < 56 ∧ ¬ (56 : Dword).toNat % 64 < 56 := by decide

/-- A command that runs from each phase, a context command that faults RANGE, and a byte-order command. -/
theorem witness_PhaseTransitions :
    (∃ t f, exec .init (machineOf Engine.reset) = .next t ∧ t.engines[0]? = some f) ∧
    (∃ t, exec .update (machineOf Engine.reset) = .next t ∧ t.engines[0]? = some (Engine.reset.raise .usage)) ∧
    (∃ t f, exec .update (machineOf (emptyAt 0 0)) = .next t ∧ t.engines[0]? = some f ∧ f.halted = false) ∧
    (∃ t, exec .finalize (machineOf (accumAt 0xFF1 0)) = .next t ∧
      t.engines[0]? = some ((accumAt 0xFF1 0).raise .range)) ∧
    ∃ t f, exec .ldLe32 (machineOf Engine.reset) = .next t ∧ t.engines[0]? = some f :=
  ⟨⟨_, _, rfl, rfl⟩, ⟨_, rfl, rfl⟩, ⟨_, _, rfl, rfl, by decide +kernel⟩, ⟨_, rfl, rfl⟩, ⟨_, _, rfl, rfl⟩⟩

/-- A context that holds "abc", its bytes about to be continued and about to be closed. -/
def holdsAbc : Engine :=
  { inited with
    addr := 0xFF0, len := 16, phase := .accum, count := 3
    buf := (Vector.replicate 64 0).set 0 0x61 |>.set 1 0x62 |>.set 2 0x63 }

theorem witness_ContextRepresentsMessage : (machineOf holdsAbc).Running holdsAbc ∧ holdsAbc.phase = .accum ∧
    holdsAbc.addr.toNat + holdsAbc.len.toNat ≤ 0x1000 ∧ holdsAbc.Holds [0x61, 0x62, 0x63] ∧
    (machineOf Engine.reset).Running Engine.reset ∧ inited.Holds [] := by decide +kernel

theorem witness_FinalizeWritesMD4OfMessage : (machineOf holdsAbc).Running holdsAbc ∧ holdsAbc.phase = .accum ∧
    (machineOf holdsAbc).mem.wf ∧ holdsAbc.addr.toNat + 16 ≤ 0x1000 ∧ holdsAbc.Holds [0x61, 0x62, 0x63] := by
  decide +kernel

/-- A running and a halted instance. -/
theorem witness_CommandRegisterFrame : (∃ t, exec .finalize (machineOf holdsAbc) = .next t) ∧
    ∃ t, exec .init (machineOf haltedEngine) = .next t := ⟨⟨_, rfl⟩, ⟨_, rfl⟩⟩

/-- One form that stores nothing, and each width of store. -/
theorem witness_CommandMemoryFrame : (machineOf holdsAbc).engines[0]? = some holdsAbc ∧
    (∃ t, exec .init (machineOf holdsAbc) = .next t) ∧ (∃ t, exec .finalize (machineOf holdsAbc) = .next t) ∧
    (∃ t, exec .stLe32 (machineOf holdsAbc) = .next t) ∧ (∃ t, exec .stLe64 (machineOf holdsAbc) = .next t) ∧
    0xFEF < holdsAbc.addr.toNat ∧ holdsAbc.addr.toNat + 16 ≤ 0x1000 ∧ holdsAbc.addr.toNat + 4 ≤ 0xFF4 ∧
    holdsAbc.addr.toNat + 8 ≤ 0xFF8 := ⟨rfl, ⟨_, rfl⟩, ⟨_, rfl⟩, ⟨_, rfl⟩, ⟨_, rfl⟩, by decide, by decide, by decide, by decide⟩

theorem witness_InstancesAreIndependent :
    ([holdsAbc, haltedEngine] : List Engine)[(twoInstances holdsAbc inited).sel]? =
      (twoInstances holdsAbc inited).engines[(twoInstances holdsAbc inited).sel]? ∧
    ∃ t, exec .finalize (twoInstances holdsAbc inited) = .next t := ⟨rfl, ⟨_, rfl⟩⟩

/-- Two machines whose BUF[3] differ, BUF[0..3) being "abc"; FINALIZE is next. -/
theorem witness_StaleBufferNeverObserved :
    State.sameButStale ((machineOf holdsAbc).withFetchWord 32 0x3)
      ((machineOf { holdsAbc with buf := holdsAbc.buf.set 3 0xFF }).withFetchWord 32 0x3) ∧
    holdsAbc ≠ { holdsAbc with buf := holdsAbc.buf.set 3 0xFF } ∧
    ∃ t, step ((machineOf holdsAbc).withFetchWord 32 0x3) = .next t :=
  ⟨⟨.cons ⟨by decide +kernel, rfl⟩ .nil, rfl⟩, by decide +kernel, ⟨_, rfl⟩⟩

theorem witness_ConcurrentOrderMakesNoDifference : (twoInstances holdsAbc inited).mem.wf ∧
    ([(0, 0x3), (1, 0x10)] : List (Nat × Dword)).Perm [(1, 0x10), (0, 0x3)] := by decide

/-- A load of 0x10 .. 0x13 and a store to 0x14 .. 0x17, side by side: no byte is shared. -/
theorem witness_ConcurrentCommandsTakeEffect :
    let s := twoInstances { Engine.reset with addr := 0x10 } { Engine.reset with addr := 0x14 }
    let cmds : List (Nat × Dword) := [(0, 0x10), (1, 0x14)]
    (∀ c ∈ cmds, c.1 < s.engines.length) ∧ (cmds.map (·.1)).Nodup ∧
      cmds.Pairwise fun c d => ∀ (e f : Engine) (a b : Instr) (x : Nat),
        s.engines[c.1]? = some e → s.engines[d.1]? = some f → e.halted = false → f.halted = false →
        decode c.2 = .ok a → decode d.2 = .ok b →
        faultOf s.cfg.memSize e a = none → faultOf s.cfg.memSize f b = none →
        (writesMemory a = true ∨ writesMemory b = true) →
        ¬ (e.addr.toNat ≤ x ∧ x < e.addr.toNat + memBytes e a ∧ f.addr.toNat ≤ x ∧ x < f.addr.toNat + memBytes f b) := by
  refine ⟨by decide, by decide, ?_⟩
  simp only [List.pairwise_cons, List.mem_singleton, forall_eq, List.not_mem_nil, false_implies, implies_true,
    List.Pairwise.nil, and_true]
  intro e f a b x he hf _ _ ha hb _ _ _
  cases (Option.some.inj he : _ = e)
  cases (Option.some.inj hf : _ = f)
  cases ha.symm.trans (by decide : decode 0x10 = .ok .ldLe32)
  cases hb.symm.trans (by decide : decode 0x14 = .ok .stLe32)
  change ¬ (0x10 ≤ x ∧ x < 0x10 + 4 ∧ 0x14 ≤ x ∧ x < 0x14 + 4)
  omega

/-- A load and a store that share the byte at 0x13. -/
theorem witness_RacesAreRefused :
    (twoInstances { Engine.reset with addr := 0x10 } { Engine.reset with addr := 0x13 }).engines[0]? =
      some { Engine.reset with addr := 0x10 } ∧
    (twoInstances { Engine.reset with addr := 0x10 } { Engine.reset with addr := 0x13 }).engines[1]? =
      some { Engine.reset with addr := 0x13 } ∧
    faultOf 0x1000 { Engine.reset with addr := 0x10 } .ldLe32 = none ∧
    faultOf 0x1000 { Engine.reset with addr := 0x13 } .stLe32 = none ∧ writesMemory .stLe32 = true ∧
    0x10 ≤ 0x13 ∧ 0x13 < 0x10 + memBytes { Engine.reset with addr := 0x10 } .ldLe32 ∧
    0x13 < 0x13 + memBytes { Engine.reset with addr := 0x13 } .stLe32 := by decide

/-- The first and the last offset, of the named registers and of the block. -/
theorem witness_RegisterReads : State.reset.engines[0]? = some Engine.reset ∧
    (0x00 < 0x80 ∧ 0x00 % 8 = 0) ∧ (0x40 < 0x80 ∧ 0x40 % 8 = 0) ∧ 0x78 < 0x80 ∧ 0x78 % 8 = 0 := by decide

theorem witness_OperandWrites : (machineOf haltedEngine).engines[0]? = some haltedEngine ∧
    State.reset.engines[0]? = some Engine.reset := by decide

/-- Each clause: RESULT and the last reserved offset, the first reserved offset, a narrow access, an unaligned one. -/
theorem witness_IgnoredAndRefusedAccesses : State.reset.engines[0]? = some Engine.reset ∧
    (0x20 ≤ 0x20 ∧ 0x20 % 8 = 0) ∧ (0x48 ≤ 0x48 ∧ 0x48 % 8 = 0) ∧ (0x78 < 0x80 ∧ 0x78 % 8 = 0) ∧ 4 < 8 ∧
    0x7F < 0x80 ∧ 0x7F % 8 ≠ 0 := by decide

theorem witness_BusAddressReachesRegister : (twoInstances inited inited).cfg.wf ∧
    (twoInstances inited inited).cfg.engineBase[1]? = some 0x2000 ∧ 0x78 < 0x80 := by decide

/-- The last byte of memory, and the first address that does not exist. -/
theorem witness_HostStoreAndLoad : State.reset.mem.wf ∧ 0xFFE + ([1, 2] : List Byte).length ≤ State.reset.cfg.memSize ∧
    0xFFF < State.reset.cfg.memSize ∧ State.reset.cfg.memSize ≤ 0x1000 := by decide

end Sys2Proof.Tests
end

section
/-! PROOF. The rotation of 00_scope.md R12 and the amounts of 41_compression.md R103. -/

namespace Sys2Proof.Machine

/-- The model's two shifts are the library's rotation by an amount it does not reduce. -/
theorem rotl32_eq_rotateLeftAux (x : Word) (a : Nat) : rotl32 x a = x.rotateLeftAux a := rfl

/-- R12: the low `a` bits come from the top of x, the others from `a` places below. -/
theorem getLsbD_rotl32 (x : Word) {a i : Nat} (ha : a ≤ 31) (hi : i < 32) :
    (rotl32 x a).getLsbD i = x.getLsbD ((i + 32 - a) % 32) := by
  rw [rotl32_eq_rotateLeftAux]
  by_cases hlow : i < a
  · have hsource : (i + 32 - a) % 32 = 32 - a + i := by omega
    rw [hsource, BitVec.getLsbD_rotateLeftAux_of_lt hlow]
  · have hsource : (i + 32 - a) % 32 = i - a := by omega
    rw [hsource, BitVec.getLsbD_rotateLeftAux_of_ge (Nat.le_of_not_lt hlow), decide_eq_true hi, Bool.true_and]

theorem Round.length_shifts (r : Round) : r.shifts.length = 4 := by cases r <;> rfl

/-- `i % 4` is an index of S[r], so the default of the lookup is never read. -/
theorem Round.shift_mem_shifts (r : Round) (i : Nat) : r.shift i ∈ r.shifts := by
  have hindex : i % 4 < r.shifts.length := by
    rw [r.length_shifts]
    omega
  rw [Round.shift, List.getD_eq_getElem _ _ hindex]
  exact List.getElem_mem hindex

theorem Round.shifts_subset (r : Round) : r.shifts ⊆ [3, 5, 7, 9, 11, 13, 15, 19] := by
  cases r <;> decide

/-- Settles O29: bit by bit, below and from the amount up; the amounts by the table of each round. -/
theorem rotateMovesBits : Obligations.RotateMovesBits := by
  unfold Obligations.RotateMovesBits
  constructor
  · intro x a i _ ha hi
    exact getLsbD_rotl32 x ha hi
  · intro r i _
    exact r.shifts_subset (r.shift_mem_shifts i)

end Sys2Proof.Machine
end

section
/-! PROOF. The register block of an engine (10_state.md R33 to R40), and what each host operation can change. -/

namespace Sys2Proof.Machine

/-! ### Registers by offset -/

@[simp] theorem regAt_regOffset (r : Reg) : regAt (regOffset r) = some r := by cases r <;> rfl

theorem regAt_eq_some {off : Nat} {r : Reg} : regAt off = some r ↔ off = regOffset r := by
  constructor
  · intro h
    unfold regAt at h
    split_ifs at h <;> cases h <;> assumption
  · rintro rfl
    exact regAt_regOffset r

/-- The offsets from 0x48 up are reserved (10_state.md R33). -/
theorem regAt_reserved {off : Nat} (h : 0x48 ≤ off) : regAt off = none := by
  refine Option.eq_none_iff_forall_ne_some.mpr fun r hr => ?_
  have hoff := regAt_eq_some.mp hr
  have hlast : regOffset r ≤ 0x40 := by cases r <;> decide
  omega

@[simp] theorem readOffset_regOffset (e : Engine) (r : Reg) : e.readOffset (regOffset r) = e.readReg r := by
  simp [Engine.readOffset]

/-- A reserved offset reads as 0 (10_state.md R38). -/
theorem readOffset_reserved (e : Engine) {off : Nat} (h : 0x48 ≤ off) : e.readOffset off = 0 := by
  simp [Engine.readOffset, regAt_reserved h]

/-- The read-only registers and the reserved offsets ignore a write (10_state.md R38). -/
theorem writeOffset_readOnly (e : Engine) {off : Nat} (v : Dword) (h : 0x20 ≤ off) : e.writeOffset off v = e := by
  cases hr : regAt off with
  | none => simp [Engine.writeOffset, hr]
  | some r =>
    have hoff : 0x20 ≤ regOffset r := regAt_eq_some.mp hr ▸ h
    cases r
    case addr | len | val => exact absurd hoff (by decide)
    all_goals simp [Engine.writeOffset, hr]

/-- A register write reaches ADDR, LEN and VAL only (10_state.md R38, R39). -/
theorem writeOffset_frame (e : Engine) (off : Nat) (v : Dword) :
    ∃ a l w, e.writeOffset off v = { e with addr := a, len := l, val := w } := by
  unfold Engine.writeOffset
  split <;> exact ⟨_, _, _, rfl⟩

/-! ### Register accesses -/

theorem set_self_of_getElem? {α : Type} {l : List α} {i : Nat} {x : α} (h : l[i]? = some x) : l.set i x = l := by
  obtain ⟨hlt, rfl⟩ := List.getElem?_eq_some_iff.mp h
  exact List.set_getElem_self hlt

theorem withEngine_self {s : State} {e : Engine} (h : s.engines[s.sel]? = some e) : s.withEngine e = s := by
  rw [State.withEngine, set_self_of_getElem? h]

section Accesses
variable {s : State} {inst off bytes : Nat} {e : Engine} (v : Dword) (he : s.engines[inst]? = some e)
include he

/-- A whole read appends the register's value to the observations (10_state.md R40). -/
theorem hostRead_whole (hoff : off < 0x80) (hmul : off % 8 = 0) :
    hostRead { inst := inst, off := off, bytes := 8 } s =
      .next { s with sel := inst, obs := s.obs ++ [e.readOffset off] } :=
  onAccess_whole he hoff rfl hmul

/-- A whole write at any offset but CMD's writes the registers of its engine (10_state.md R38, R39). -/
theorem hostWrite_whole (hoff : off < 0x80) (hmul : off % 8 = 0) (hcmd : off ≠ 0) :
    hostWrite { inst := inst, off := off, bytes := 8 } v s =
      .next { s with sel := inst, engines := s.engines.set inst (e.writeOffset off v) } := by
  refine (onAccess_whole he hoff rfl hmul).trans (if_neg fun h => hcmd ?_)
  exact regAt_eq_some.mp h

/-- A whole write of CMD issues a command to its engine (10_state.md R35). -/
theorem hostWrite_cmd :
    hostWrite { inst := inst, off := 0, bytes := 8 } v s = issue v { s with sel := inst } :=
  onAccess_whole he (Nat.zero_lt_succ _) rfl rfl

/-- An access that is not a whole register is refused (10_state.md R38). -/
theorem onAccess_partial (k : State → Engine → Out) (hoff : off < 0x80) (h : ¬ (bytes = 8 ∧ off % 8 = 0)) :
    onAccess { inst := inst, off := off, bytes := bytes } k s = .refused .partialAccess := by
  have hin : ¬ Config.blockSize ≤ off := Nat.not_le.mpr hoff
  simp [onAccess, he, hin, h]

end Accesses

/-- A CMD write of a word that decodes is its command (10_state.md R35), also where that is ignored. -/
theorem issue_decoded {v : Dword} {i : Instr} {s : State} {e : Engine} (hv : decode v = .ok i)
    (he : s.engines[s.sel]? = some e) : issue v s = exec i s := by
  by_cases hh : e.halted = true
  · rw [exec_halted i he hh]
    exact onCommand_halted he hh
  · have hrun : s.Running e := ⟨he, by simpa using hh⟩
    rw [issue, onCommand_running hrun, hv]

/-! ### What a host operation can change -/

/-- The ways a host operation can change the machine (70_reset_and_hazards.md R187), by what is written; only a reset is
tied to its operation. -/
inductive HostChange (s : State) : HostOp → State → Prop
  | loaded {op} (v : Dword) : HostChange s op { s with obs := s.obs ++ [v] }
  | registerRead {op inst} (v : Dword) (hinst : inst < s.engines.length) :
      HostChange s op { s with sel := inst, obs := s.obs ++ [v] }
  | registerWritten {op inst e} (off : Nat) (v : Dword) (he : s.engines[inst]? = some e) :
      HostChange s op { s with sel := inst, engines := s.engines.set inst (e.writeOffset off v) }
  | issued {op inst v t} (hinst : inst < s.engines.length) (h : issue v { s with sel := inst } = .next t) :
      HostChange s op t
  | issuedTogether {op cmds t} (hinst : ∀ c ∈ cmds, c.1 < s.engines.length) (h : issueEach cmds s = .next t) :
      HostChange s op { t with sel := s.sel }
  | instanceReset {inst} (hinst : inst < s.engines.length) :
      HostChange s (.reset inst) { s with engines := s.engines.set inst Engine.reset }
  | stored {op addr data} (h : inRange s.cfg.memSize addr data.length = true) :
      HostChange s op { s with mem := s.mem.write addr data }

theorem hostRead_change {a : Access} {s t : State} {op : HostOp} (h : hostRead a s = .next t) : HostChange s op t := by
  obtain ⟨e, he, -, -, -, hk⟩ := onAccess_next h
  cases hk
  exact .registerRead _ (List.getElem?_eq_some_iff.mp he).1

theorem hostWrite_change {a : Access} {v : Dword} {s t : State} {op : HostOp} (h : hostWrite a v s = .next t) :
    HostChange s op t := by
  obtain ⟨e, he, -, -, -, hk⟩ := onAccess_next h
  split_ifs at hk with hcmd
  · exact .issued (List.getElem?_eq_some_iff.mp he).1 hk
  · cases hk
    exact .registerWritten a.off v he

theorem issueTogether_change {cmds : List (Nat × Dword)} {s t : State} {op : HostOp}
    (h : issueTogether cmds s = .next t) : HostChange s op t := by
  unfold issueTogether at h
  split_ifs at h with hinst
  obtain ⟨u, hu, hk⟩ := andThen_next.mp h
  cases hk
  exact .issuedTogether (by simpa using hinst) hu

/-- A host operation that answers a next state made one of these changes. -/
theorem perform_next {op : HostOp} {s t : State} (h : perform op s = .next t) : HostChange s op t := by
  cases op with
  | write a v => exact hostWrite_change h
  | read a => exact hostRead_change h
  | busWrite b n v =>
    simp only [perform] at h
    split at h
    · cases h
    · exact hostWrite_change h
  | busRead b n =>
    simp only [perform] at h
    split at h
    · cases h
    · exact hostRead_change h
  | issueTogether cmds => exact issueTogether_change h
  | reset i =>
    simp only [perform, resetInstance] at h
    split_ifs at h with hi
    cases h
    exact .instanceReset hi
  | hostStore a data =>
    simp only [perform, hostStore] at h
    split_ifs at h with hr
    cases h
    exact .stored hr
  | hostLoad a =>
    simp only [perform, hostLoad] at h
    split_ifs at h
    cases h
    exact .loaded _

/-- Everything a step can do when it answers a next state: nothing at the end of the program, else one operation. -/
theorem step_next {s t : State} (h : step s = .next t) :
    s.prog = [] ∧ t = s ∨ ∃ op rest, s.prog = op :: rest ∧ HostChange (s.advance rest) op t := by
  cases hp : s.prog with
  | nil =>
    cases (step_ended hp).symm.trans h
    exact .inl ⟨rfl, rfl⟩
  | cons op rest => exact .inr ⟨op, rest, rfl, perform_next ((step_op hp).symm.trans h)⟩

end Sys2Proof.Machine
end

section
/-! PROOF. The invariant of every reachable state (Sys2Proof/Safety.lean): each update the model makes keeps it. -/

namespace Sys2Proof.Machine

/-! ### One engine -/

theorem reset_inv : Engine.reset.Inv := by decide

/-- A fault sets HALTED and a code other than NONE, and leaves the context (60_exceptions.md R152). -/
theorem Engine.Inv.raise {e : Engine} (h : e.Inv) {c : FaultCode} (hc : c ≠ .none) : (e.raise c).Inv := by
  obtain ⟨-, hcontext⟩ := h
  exact ⟨by simp [hc], hcontext⟩

/-- The invariant says nothing of the operand registers. -/
theorem Engine.Inv.writeOffset {e : Engine} (h : e.Inv) (off : Nat) (v : Dword) : (e.writeOffset off v).Inv := by
  obtain ⟨a, l, w, heq⟩ := writeOffset_frame e off v
  rw [heq]
  exact h

/-- The invariant says nothing of RESULT. -/
theorem Engine.Inv.withResult {e : Engine} (h : e.Inv) (r : Dword) : { e with result := r }.Inv := h

theorem Engine.Inv.started {e : Engine} (h : e.Inv) : { e with h := iv, count := 0, phase := .empty }.Inv := by
  obtain ⟨hfault, -⟩ := h
  exact ⟨hfault, by simp, by simp, by simp⟩

theorem Engine.Inv.absorbed {e : Engine} (h : e.Inv) (data : List Byte) :
    { e.absorb data with phase := .accum }.Inv := by
  obtain ⟨hfault, -⟩ := h
  obtain ⟨_, _, heq⟩ := absorb_frame e data
  rw [heq]
  exact ⟨hfault, by simp, by simp, by simp⟩

/-- After FINALIZE no byte is buffered (42_stream.md R135). -/
theorem Engine.Inv.close {e : Engine} (h : e.Inv) : e.close.Inv := by
  obtain ⟨hfault, -⟩ := h
  have hindex : e.close.count.toNat % 64 = 0 := close_index e
  obtain ⟨_, _, _, heq⟩ := close_frame e
  rw [heq] at hindex ⊢
  exact ⟨hfault, by simp, by simp, fun _ => hindex⟩

/-- COMPRESS writes H, which the invariant fixes in UNINIT alone, and it does not run there (41_compression.md R114). -/
theorem Engine.Inv.compressed {e : Engine} (h : e.Inv) (hactive : e.phase.isActive = true) (c : Chain) :
    { e with h := c }.Inv := by
  obtain ⟨hfault, -, hempty, hfinal⟩ := h
  refine ⟨hfault, fun huninit => ?_, hempty, hfinal⟩
  rcases (isActive_iff _).mp hactive with hp | hp <;> cases hp.symm.trans huninit

/-! ### The machine -/

theorem State.Inv.setEngine {s : State} (h : s.Inv) (i : Nat) {e : Engine} (he : e.Inv) :
    { s with engines := s.engines.set i e }.Inv := by
  obtain ⟨hcfg, hlen, hsel, hengines, hmem⟩ := h
  refine ⟨hcfg, by simpa using hlen, by simpa using hsel, fun f hf => ?_, hmem⟩
  rcases List.mem_or_eq_of_mem_set hf with hf | rfl
  · exact hengines f hf
  · exact he

theorem State.Inv.select {s : State} (h : s.Inv) {i : Nat} (hi : i < s.engines.length) : { s with sel := i }.Inv := by
  obtain ⟨hcfg, hlen, -, hrest⟩ := h
  exact ⟨hcfg, hlen, hi, hrest⟩

/-- A store in range keeps memory canonical and within MEM_SIZE (20_memory.md R45, R50). -/
theorem State.Inv.write {s : State} (h : s.Inv) {addr : Nat} {data : List Byte}
    (hr : inRange s.cfg.memSize addr data.length = true) : { s with mem := s.mem.write addr data }.Inv := by
  obtain ⟨hcfg, hlen, hsel, hengines, hwf, hbound⟩ := h
  refine ⟨hcfg, hlen, hsel, hengines, write_wf hwf addr data, fun p hp => ?_⟩
  rcases mem_write hp with hp | hin
  · exact hbound p hp
  · have := inRange_iff.mp hr
    show p.1 < s.cfg.memSize
    omega

/-- The invariant says nothing of the run. -/
theorem State.Inv.withRun {s : State} (h : s.Inv) (prog : List HostOp) (pos : Nat) (obs : List Dword) :
    { s with prog := prog, pos := pos, obs := obs }.Inv := h

theorem State.Inv.engine {s : State} (h : s.Inv) {i : Nat} {e : Engine} (he : s.engines[i]? = some e) : e.Inv := by
  obtain ⟨-, -, -, hengines, -⟩ := h
  exact hengines e (List.mem_of_getElem? he)

/-! ### Commands and operations -/

/-- What it takes for a command to raise no fault (60_exceptions.md R158). -/
theorem faultOf_eq_none {memSize : Nat} {e : Engine} {i : Instr} (h : faultOf memSize e i = none) :
    (needsOpenPhase i = true → e.phase.isActive = true) ∧ inRange memSize e.addr.toNat (memBytes e i) = true := by
  unfold faultOf at h
  split_ifs at h with husage halign hrange
  exact ⟨by simpa using husage, hrange⟩

theorem effect_inv {s : State} {e : Engine} {i : Instr} (h : s.Inv) (he : s.engines[s.sel]? = some e)
    (hf : faultOf s.cfg.memSize e i = none) : (effect s e i).Inv := by
  obtain ⟨hopen, hrange⟩ := faultOf_eq_none hf
  have hinv := h.engine he
  cases i with
  | init => exact h.setEngine _ hinv.started
  | update => exact h.setEngine _ (hinv.absorbed _)
  | finalize => exact (h.write (data := digestBytes e.close.h) hrange).setEngine _ hinv.close
  | compress => exact h.setEngine _ (hinv.compressed (hopen rfl) _)
  | ldLe32 | ldBe32 | ldLe64 | ldBe64 | misaligned => exact h.setEngine _ (hinv.withResult _)
  | stLe32 => exact h.write (data := le32bytes e.valLow) hrange
  | stBe32 => exact h.write (data := be32bytes e.valLow) hrange
  | stLe64 => exact h.write (data := le64bytes e.val) (le64bytes_length e.val ▸ hrange)
  | stBe64 => exact h.write (data := be64bytes e.val) (be64bytes_length e.val ▸ hrange)

theorem issue_inv {v : Dword} {s t : State} (h : s.Inv) (ht : issue v s = .next t) : t.Inv := by
  obtain ⟨e, he, ⟨-, rfl⟩ | ⟨-, ⟨c, hc, rfl⟩ | ⟨i, -, hf, rfl⟩⟩⟩ := issue_next ht
  · exact h
  · exact h.setEngine _ ((h.engine he).raise hc)
  · exact effect_inv h he hf

theorem issueEach_inv {cmds : List (Nat × Dword)} {s t : State} (h : s.Inv)
    (hinst : ∀ c ∈ cmds, c.1 < s.engines.length) (ht : issueEach cmds s = .next t) : t.Inv := by
  induction cmds generalizing s with
  | nil =>
    cases ht
    exact h
  | cons c cmds ih =>
    obtain ⟨u, hu, ht⟩ := andThen_next.mp ht
    have hlen : u.engines.length = s.engines.length := by
      obtain ⟨e', m, rfl⟩ := issue_frame hu
      simp
    refine ih (issue_inv (h.select (hinst c (List.mem_cons_self ..))) hu) (fun d hd => ?_) ht
    rw [hlen]
    exact hinst d (List.mem_cons_of_mem _ hd)

theorem HostChange.inv {s t : State} {op : HostOp} (hchange : HostChange s op t) (h : s.Inv) : t.Inv := by
  cases hchange with
  | loaded v => exact h.withRun _ _ _
  | registerRead v hinst => exact (h.select hinst).withRun _ _ _
  | registerWritten off v he =>
    have hselected := h.select (List.getElem?_eq_some_iff.mp he).1
    exact hselected.setEngine _ ((h.engine he).writeOffset off v)
  | issued hinst ht => exact issue_inv (h.select hinst) ht
  | issuedTogether hinst ht =>
    have hissued := issueEach_inv h hinst ht
    obtain ⟨hlen, -⟩ := issueEach_frame ht
    obtain ⟨-, -, hsel, -⟩ := h
    exact hissued.select (hlen ▸ hsel)
  | instanceReset _ => exact h.setEngine _ reset_inv
  | stored hr => exact h.write hr

/-- Settles O11: each change a host operation can make keeps the invariant. -/
theorem stepKeepsInvariant : Obligations.StepKeepsInvariant := by
  unfold Obligations.StepKeepsInvariant
  intro s t h ht
  obtain ⟨-, rfl⟩ | ⟨op, rest, -, hchange⟩ := step_next ht
  · exact h
  · exact hchange.inv (h.withRun rest (s.pos + 1) s.obs)

/-- Settles O10: one engine, as reset leaves it, and a memory that lists no byte. -/
theorem resetMeetsInvariant : Obligations.ResetMeetsInvariant := by
  unfold Obligations.ResetMeetsInvariant
  have hengines : ∀ e ∈ State.reset.engines, e.Inv := fun e he => List.eq_of_mem_replicate he ▸ reset_inv
  exact ⟨by decide, rfl, by decide, hengines, ⟨.nil, nofun⟩, nofun⟩

end Sys2Proof.Machine
end

section
/-! PROOF. The BUF bytes at and above COUNT mod 64 have no influence (10_state.md R28, 42_stream.md R130): a simulation
between two machines that differ in nothing else. -/

namespace Sys2Proof.Machine

/-! ### Two instances -/

/-- The second engine is the first with another BUF that begins with the same buffered bytes. -/
theorem Engine.sameButStale_iff {e e' : Engine} :
    e.sameButStale e' ↔ ∃ b, e' = { e with buf := b } ∧ b.toList.take e.index = e.buffered := by
  constructor
  · rintro ⟨hbuf, heq⟩
    have hcount : e.count = e'.count := by rw [← heq]
    refine ⟨e'.buf, heq.symm, ?_⟩
    rw [hbuf, index_congr hcount, Engine.buffered]
  · rintro ⟨b, rfl, hb⟩
    exact ⟨hb.symm, rfl⟩

theorem Engine.sameButStale.refl (e : Engine) : e.sameButStale e := ⟨rfl, rfl⟩

section Instances
variable {e e' : Engine} (h : e.sameButStale e')
include h

theorem Engine.sameButStale.halted_eq : e'.halted = e.halted := by rw [← h.2]

theorem Engine.sameButStale.h_eq : e'.h = e.h := by rw [← h.2]

/-- No register shows a byte of BUF (10_state.md R26). -/
theorem Engine.sameButStale.readReg_eq (r : Reg) : e'.readReg r = e.readReg r := by
  obtain ⟨b, rfl, -⟩ := Engine.sameButStale_iff.mp h
  cases r <;> rfl

theorem Engine.sameButStale.readOffset_eq (off : Nat) : e'.readOffset off = e.readOffset off := by
  unfold Engine.readOffset
  split
  · exact h.readReg_eq _
  · rfl

/-- No fault depends on BUF (60_exceptions.md R150). -/
theorem Engine.sameButStale.faultOf_eq (memSize : Nat) (i : Instr) : faultOf memSize e' i = faultOf memSize e i := by
  obtain ⟨b, rfl, -⟩ := Engine.sameButStale_iff.mp h
  cases i <;> rfl

theorem Engine.sameButStale.footprint_eq (memSize : Nat) (v : Dword) :
    footprint memSize e' v = footprint memSize e v := by
  have hmem (i : Instr) : memBytes e' i = memBytes e i := by
    obtain ⟨b, rfl, -⟩ := Engine.sameButStale_iff.mp h
    cases i <;> rfl
  have haddr : e'.addr = e.addr := by rw [← h.2]
  simp only [footprint, h.halted_eq, h.faultOf_eq, hmem, haddr]

theorem Engine.sameButStale.raise (c : FaultCode) : (e.raise c).sameButStale (e'.raise c) := by
  obtain ⟨b, rfl, hb⟩ := Engine.sameButStale_iff.mp h
  exact Engine.sameButStale_iff.mpr ⟨b, rfl, hb⟩

theorem Engine.sameButStale.writeOffset (off : Nat) (v : Dword) :
    (e.writeOffset off v).sameButStale (e'.writeOffset off v) := by
  obtain ⟨b, rfl, hb⟩ := Engine.sameButStale_iff.mp h
  unfold Engine.writeOffset
  split <;> exact Engine.sameButStale_iff.mpr ⟨b, rfl, hb⟩

theorem Engine.sameButStale.withResult (r : Dword) :
    { e with result := r }.sameButStale { e' with result := r } := by
  obtain ⟨b, rfl, hb⟩ := Engine.sameButStale_iff.mp h
  exact Engine.sameButStale_iff.mpr ⟨b, rfl, hb⟩

theorem Engine.sameButStale.withChain (c : Chain) : { e with h := c }.sameButStale { e' with h := c } := by
  obtain ⟨b, rfl, hb⟩ := Engine.sameButStale_iff.mp h
  exact Engine.sameButStale_iff.mpr ⟨b, rfl, hb⟩

theorem Engine.sameButStale.withPhase (p : Phase) : { e with phase := p }.sameButStale { e' with phase := p } := by
  obtain ⟨b, rfl, hb⟩ := Engine.sameButStale_iff.mp h
  exact Engine.sameButStale_iff.mpr ⟨b, rfl, hb⟩

/-- INIT leaves no byte buffered, so all of BUF is without meaning (42_stream.md R127). -/
theorem Engine.sameButStale.started :
    { e with h := iv, count := 0, phase := .empty }.sameButStale { e' with h := iv, count := 0, phase := .empty } := by
  obtain ⟨b, rfl, -⟩ := Engine.sameButStale_iff.mp h
  exact Engine.sameButStale_iff.mpr ⟨b, rfl, rfl⟩

/-- Absorb reads the buffered bytes and no other byte of BUF (42_stream.md R128). -/
theorem Engine.sameButStale.absorb (data : List Byte) : (e.absorb data).sameButStale (e'.absorb data) := by
  obtain ⟨hh, hbuffered⟩ := absorb_spec e data
  obtain ⟨hh', hbuffered'⟩ := absorb_spec e' data
  rw [← h.1, h.h_eq, ← hh] at hh'
  rw [← h.1, ← hbuffered] at hbuffered'
  refine ⟨hbuffered'.symm, ?_⟩
  obtain ⟨c, b, heq⟩ := absorb_frame e data
  obtain ⟨c', b', heq'⟩ := absorb_frame e' data
  have hc : c' = c := by simpa only [heq, heq'] using hh'
  rw [heq, heq', hc, ← h.2]

theorem Engine.sameButStale.close : e.close.sameButStale e'.close := by
  have hcount : e.count = e'.count := by rw [← h.2]
  unfold Engine.close
  rw [← index_congr hcount, ← hcount]
  exact ((h.absorb _).absorb _).withPhase .final

end Instances

/-! ### Two machines -/

/-- The second machine is the first with instances that pairwise differ in nothing but stale bytes. -/
theorem State.sameButStale_iff {s s' : State} :
    s.sameButStale s' ↔ ∃ es, s' = { s with engines := es } ∧ List.Forall₂ Engine.sameButStale s.engines es := by
  constructor
  · rintro ⟨hes, heq⟩
    exact ⟨s'.engines, heq.symm, hes⟩
  · rintro ⟨es, rfl, hes⟩
    exact ⟨hes, rfl⟩

theorem forall₂_set {es es' : List Engine} (h : List.Forall₂ Engine.sameButStale es es') (i : Nat) {e e' : Engine}
    (he : e.sameButStale e') : List.Forall₂ Engine.sameButStale (es.set i e) (es'.set i e') := by
  induction h generalizing i with
  | nil => exact .nil
  | cons hd htl ih =>
    cases i with
    | zero => exact .cons he htl
    | succ i => exact .cons hd (ih i)

section Machines
variable {s s' : State} (h : s.sameButStale s')
include h

theorem State.sameButStale.setEngine (i : Nat) {e e' : Engine} (he : e.sameButStale e') :
    { s with engines := s.engines.set i e }.sameButStale { s' with engines := s'.engines.set i e' } := by
  obtain ⟨es, rfl, hes⟩ := State.sameButStale_iff.mp h
  exact State.sameButStale_iff.mpr ⟨_, rfl, forall₂_set hes i he⟩

/-- The same, of the selected engine. -/
theorem State.sameButStale.withEngine {e e' : Engine} (he : e.sameButStale e') :
    (s.withEngine e).sameButStale (s'.withEngine e') := by
  obtain ⟨es, rfl, -⟩ := State.sameButStale_iff.mp h
  exact h.setEngine s.sel he

theorem State.sameButStale.withMem (m : Memory) : { s with mem := m }.sameButStale { s' with mem := m } := by
  obtain ⟨es, rfl, hes⟩ := State.sameButStale_iff.mp h
  exact State.sameButStale_iff.mpr ⟨es, rfl, hes⟩

theorem State.sameButStale.withRun (sel : Nat) (prog : List HostOp) (pos : Nat) (obs : List Dword) :
    { s with sel := sel, prog := prog, pos := pos, obs := obs }.sameButStale
      { s' with sel := sel, prog := prog, pos := pos, obs := obs } := by
  obtain ⟨es, rfl, hes⟩ := State.sameButStale_iff.mp h
  exact State.sameButStale_iff.mpr ⟨es, rfl, hes⟩

theorem State.sameButStale.advance (rest : List HostOp) : (s.advance rest).sameButStale (s'.advance rest) := by
  obtain ⟨es, rfl, -⟩ := State.sameButStale_iff.mp h
  exact h.withRun s.sel rest (s.pos + 1) s.obs

theorem State.sameButStale.prog_eq : s'.prog = s.prog := by rw [← h.2]

theorem State.sameButStale.length_eq : s'.engines.length = s.engines.length := by
  obtain ⟨hes, -⟩ := h
  exact hes.length_eq.symm

theorem State.sameButStale.engine {i : Nat} {e : Engine} (he : s.engines[i]? = some e) :
    ∃ e', s'.engines[i]? = some e' ∧ e.sameButStale e' := by
  have hlen := h.length_eq
  obtain ⟨hes, -⟩ := h
  obtain ⟨hi, rfl⟩ := List.getElem?_eq_some_iff.mp he
  have hi' : i < s'.engines.length := hlen ▸ hi
  exact ⟨s'.engines[i], List.getElem?_eq_getElem hi', hes.get hi hi'⟩

/-- R188's observation: memory, the registers of every engine, and what reads have returned. -/
theorem State.sameButStale.observe_eq : s.observe = s'.observe := by
  obtain ⟨es, rfl, hes⟩ := State.sameButStale_iff.mp h
  have hvalues {e e' : Engine} (he : e.sameButStale e') : e.registerValues = e'.registerValues := by
    simp only [Engine.registerValues, he.readReg_eq]
  have hmap := List.rel_map (fun _ _ he => hvalues he) hes
  rw [List.forall₂_eq_eq_eq] at hmap
  simp only [State.observe, hmap]

theorem State.sameButStale.footprintOf_eq (c : Nat × Dword) : s'.footprintOf c = s.footprintOf c := by
  cases he : s.engines[c.1]? with
  | none =>
    have hout : s'.engines.length ≤ c.1 := h.length_eq ▸ List.getElem?_eq_none_iff.mp he
    simp only [State.footprintOf, he, List.getElem?_eq_none hout]
  | some e =>
    obtain ⟨e', he', hee⟩ := h.engine he
    obtain ⟨es, rfl, -⟩ := State.sameButStale_iff.mp h
    simp only [State.footprintOf, he, he', hee.footprint_eq]

theorem State.sameButStale.raceFree_eq (cmds : List (Nat × Dword)) : s'.raceFree cmds = s.raceFree cmds := by
  induction cmds with
  | nil => rfl
  | cons c cmds ih => simp only [State.raceFree, State.races, h.footprintOf_eq, ih]

/-- What a command does depends on the buffered bytes and on no other byte of BUF. -/
theorem State.sameButStale.effect {e e' : Engine} (he : e.sameButStale e') (i : Instr) :
    (effect s e i).sameButStale (effect s' e' i) := by
  have hdigest : digestBytes e'.close.h = digestBytes e.close.h := by rw [he.close.h_eq]
  obtain ⟨es, rfl, -⟩ := State.sameButStale_iff.mp h
  obtain ⟨b, rfl, -⟩ := Engine.sameButStale_iff.mp he
  cases i with
  | init => exact h.withEngine he.started
  | update => exact h.withEngine ((he.absorb _).withPhase .accum)
  | finalize =>
    simp only [Machine.effect, hdigest]
    exact (h.withMem _).withEngine he.close
  | compress => exact h.withEngine (he.withChain _)
  | ldLe32 | ldBe32 | ldLe64 | ldBe64 | misaligned => exact h.withEngine (he.withResult _)
  | stLe32 | stBe32 | stLe64 | stBe64 => exact h.withMem _

end Machines

/-! ### Two operations -/

/-- Where the first operation answers a next state, so does the second, and the two states differ in nothing but stale
bytes. -/
def MatchedBy (o o' : Out) : Prop := ∀ t, o = .next t → ∃ t', o' = .next t' ∧ t.sameButStale t'

theorem matchedBy_next {t t' : State} (h : t.sameButStale t') : MatchedBy (.next t) (.next t') := by
  intro u hu
  cases hu
  exact ⟨t', rfl, h⟩

theorem matchedBy_refused (r : Refusal) (o : Out) : MatchedBy (.refused r) o := nofun

theorem matchedBy_fault (r : Fault) (o : Out) : MatchedBy (.fault r) o := nofun

theorem MatchedBy.andThen {o o' : Out} {k k' : State → Out} (h : MatchedBy o o')
    (hk : ∀ t t', t.sameButStale t' → MatchedBy (k t) (k' t')) : MatchedBy (andThen o k) (andThen o' k') := by
  intro u hu
  obtain ⟨t, rfl, hu⟩ := andThen_next.mp hu
  obtain ⟨t', rfl, htt⟩ := h t rfl
  exact hk t t' htt u hu

section Operations
variable {s s' : State} (h : s.sameButStale s')
include h

theorem exec_matchedBy (i : Instr) : MatchedBy (exec i s) (exec i s') := by
  intro t ht
  obtain ⟨e, he, hcase⟩ := exec_next ht
  obtain ⟨e', he', hee⟩ := h.engine he
  have heffect := h.effect hee i
  obtain ⟨es, rfl, -⟩ := State.sameButStale_iff.mp h
  obtain ⟨hh, rfl⟩ | ⟨⟨-, hrun⟩, hcase⟩ := hcase
  · exact ⟨_, exec_halted i he' (hee.halted_eq.trans hh), h⟩
  · have hexec := exec_running i ⟨he', hee.halted_eq.trans hrun⟩
    rw [hee.faultOf_eq] at hexec
    obtain ⟨c, hc, rfl⟩ | ⟨hnone, rfl⟩ := hcase
    · exact ⟨_, by rw [hexec, hc], h.withEngine (hee.raise c)⟩
    · exact ⟨_, by rw [hexec, hnone], heffect⟩

theorem issue_matchedBy (v : Dword) : MatchedBy (issue v s) (issue v s') := by
  intro t ht
  obtain ⟨e, he, hcase⟩ := onCommand_next ht
  obtain ⟨e', he', hee⟩ := h.engine he
  obtain ⟨es, rfl, -⟩ := State.sameButStale_iff.mp h
  cases hv : decode v with
  | ok i =>
    rw [issue_decoded hv he']
    exact exec_matchedBy h i t (issue_decoded hv he ▸ ht)
  | error x =>
    obtain ⟨hh, rfl⟩ | ⟨⟨-, hrun⟩, hbody⟩ := hcase
    · exact ⟨_, onCommand_halted he' (hee.halted_eq.trans hh), h⟩
    · rw [hv] at hbody
      cases hbody
      refine ⟨_, ?_, h.withEngine (hee.raise .illegal)⟩
      rw [issue, onCommand_running ⟨he', hee.halted_eq.trans hrun⟩, hv]
      rfl

omit h in
theorem issueEach_matchedBy (cmds : List (Nat × Dword)) {s s' : State} (h : s.sameButStale s') :
    MatchedBy (issueEach cmds s) (issueEach cmds s') := by
  induction cmds generalizing s s' with
  | nil => exact matchedBy_next h
  | cons c cmds ih =>
    obtain ⟨es, rfl, -⟩ := State.sameButStale_iff.mp h
    exact (issue_matchedBy (h.withRun c.1 s.prog s.pos s.obs) c.2).andThen fun _ _ htt => ih htt

theorem issueTogether_matchedBy (cmds : List (Nat × Dword)) :
    MatchedBy (issueTogether cmds s) (issueTogether cmds s') := by
  unfold issueTogether
  rw [h.length_eq, h.raceFree_eq]
  split_ifs
  · exact matchedBy_refused _ _
  · refine (issueEach_matchedBy cmds h).andThen fun t t' htt => matchedBy_next ?_
    obtain ⟨es, rfl, -⟩ := State.sameButStale_iff.mp h
    obtain ⟨es', rfl, -⟩ := State.sameButStale_iff.mp htt
    exact htt.withRun s.sel t.prog t.pos t.obs
  · exact matchedBy_refused _ _
  · exact matchedBy_refused _ _

theorem onAccess_matchedBy (a : Access) {k k' : State → Engine → Out}
    (hk : ∀ {e e'}, e.sameButStale e' → MatchedBy (k { s with sel := a.inst } e) (k' { s' with sel := a.inst } e')) :
    MatchedBy (onAccess a k s) (onAccess a k' s') := by
  intro t ht
  obtain ⟨e, he, hoff, hbytes, hmul, ht⟩ := onAccess_next ht
  obtain ⟨e', he', hee⟩ := h.engine he
  rw [onAccess_whole he' hoff hbytes hmul]
  exact hk hee t ht

theorem hostWrite_matchedBy (a : Access) (v : Dword) : MatchedBy (hostWrite a v s) (hostWrite a v s') := by
  obtain ⟨es, rfl, -⟩ := State.sameButStale_iff.mp h
  have hsel := h.withRun a.inst s.prog s.pos s.obs
  refine onAccess_matchedBy h a fun hee => ?_
  split_ifs with hcmd
  · exact issue_matchedBy hsel v
  · exact matchedBy_next (hsel.setEngine _ (hee.writeOffset a.off v))

theorem hostRead_matchedBy (a : Access) : MatchedBy (hostRead a s) (hostRead a s') := by
  obtain ⟨es, rfl, -⟩ := State.sameButStale_iff.mp h
  refine onAccess_matchedBy h a fun hee => matchedBy_next ?_
  rw [hee.readOffset_eq]
  exact h.withRun a.inst s.prog s.pos _

/-- Every host operation is matched, and by the same operation. -/
theorem perform_matchedBy (op : HostOp) : MatchedBy (perform op s) (perform op s') := by
  have hlen := h.length_eq
  obtain ⟨es, rfl, -⟩ := State.sameButStale_iff.mp h
  cases op with
  | write a v => exact hostWrite_matchedBy h a v
  | read a => exact hostRead_matchedBy h a
  | busWrite b n v =>
    simp only [perform]
    split
    · exact matchedBy_refused _ _
    · exact hostWrite_matchedBy h _ v
  | busRead b n =>
    simp only [perform]
    split
    · exact matchedBy_refused _ _
    · exact hostRead_matchedBy h _
  | issueTogether cmds => exact issueTogether_matchedBy h cmds
  | reset i =>
    simp only [perform, resetInstance]
    rw [hlen]
    split_ifs
    · exact matchedBy_next (h.setEngine i (.refl _))
    · exact matchedBy_refused _ _
  | hostStore a data =>
    simp only [perform, hostStore]
    split_ifs
    · exact matchedBy_next (h.withMem _)
    · exact matchedBy_fault _ _
  | hostLoad a =>
    simp only [perform, hostLoad]
    split_ifs
    · exact matchedBy_next (h.withRun s.sel s.prog s.pos _)
    · exact matchedBy_fault _ _

theorem step_matchedBy : MatchedBy (step s) (step s') := by
  cases hp : s.prog with
  | nil =>
    rw [step_ended hp, step_ended (h.prog_eq.trans hp)]
    exact matchedBy_next h
  | cons op rest =>
    rw [step_op hp, step_op (h.prog_eq.trans hp)]
    exact perform_matchedBy (h.advance rest) op

end Operations

/-- Settles O46: what is observed leaves BUF out, and every host operation is matched. -/
theorem staleBufferNeverObserved : Obligations.StaleBufferNeverObserved := by
  unfold Obligations.StaleBufferNeverObserved
  exact fun s s' h => ⟨h.observe_eq, step_matchedBy h⟩

end Sys2Proof.Machine
end

section
/-! PROOF. What a command and a step leave alone (10_state.md R21 to R31, R43), and what reset writes (R41). -/

namespace Sys2Proof.Machine

/-! ### A command is local to its engine -/

/-- Which registers of its engine each command can write (10_state.md R22 to R30). -/
def RegisterFrame (i : Instr) (e e' : Engine) : Prop :=
  e'.addr = e.addr ∧ e'.len = e.len ∧ e'.val = e.val ∧
    (i ∉ [Instr.ldLe32, .ldBe32, .ldLe64, .ldBe64, .misaligned] → e'.result = e.result) ∧
    (i ∉ [Instr.init, .compress, .update, .finalize] → e'.h = e.h) ∧
    (i ∉ [Instr.update, .finalize] → e'.buf = e.buf) ∧
    (i ∉ [Instr.init, .update, .finalize] → e'.count = e.count ∧ e'.phase = e.phase)

theorem RegisterFrame.refl (i : Instr) (e : Engine) : RegisterFrame i e e := by simp [RegisterFrame]

theorem RegisterFrame.raise (i : Instr) (e : Engine) (c : FaultCode) : RegisterFrame i e (e.raise c) := by
  simp [RegisterFrame]

theorem effect_finalize (s : State) (e : Engine) :
    effect s e .finalize =
      { s with
        engines := s.engines.set s.sel e.close
        mem := s.mem.write e.addr.toNat (digestBytes e.close.h) } := by
  simp only [effect, State.withEngine, State.storeAtAddr]

section Beside
variable {s : State} {e : Engine} {others : List Engine} (i : Instr) (he : s.engines[s.sel]? = some e)
  (he' : others[s.sel]? = some e)
include he he'

/-- `effect_frame` for two runs, with the registers of each command: beside any other instances a command leaves the same
in its own engine and in memory, for it reads nothing else (10_state.md R43). -/
theorem effect_beside :
    ∃ e' m, effect s e i = { s with engines := s.engines.set s.sel e', mem := m } ∧
      effect { s with engines := others } e i = { s with engines := others.set s.sel e', mem := m } ∧
      RegisterFrame i e e' := by
  cases i with
  | init | compress | ldLe32 | ldBe32 | ldLe64 | ldBe64 | misaligned =>
    exact ⟨_, s.mem, rfl, rfl, by simp [RegisterFrame]⟩
  | update =>
    obtain ⟨h, b, heq⟩ := absorb_frame e (s.mem.read e.addr.toNat e.len.toNat)
    exact ⟨_, s.mem, rfl, rfl, by simp [RegisterFrame, heq]⟩
  | finalize =>
    obtain ⟨h, b, c, heq⟩ := close_frame e
    exact ⟨e.close, _, effect_finalize s e, effect_finalize _ e, by simp [RegisterFrame, heq]⟩
  | stLe32 | stBe32 | stLe64 | stBe64 =>
    exact ⟨e, _, by rw [set_self_of_getElem? he]; rfl, by rw [set_self_of_getElem? he']; rfl, .refl _ e⟩

/-- The same of a whole command, which may also be ignored or fault. -/
theorem exec_beside :
    ∃ e' m, exec i s = .next { s with engines := s.engines.set s.sel e', mem := m } ∧
      exec i { s with engines := others } = .next { s with engines := others.set s.sel e', mem := m } ∧
      RegisterFrame i e e' := by
  by_cases hh : e.halted = true
  · refine ⟨e, s.mem, ?_, ?_, .refl i e⟩
    · rw [exec_halted i he hh, set_self_of_getElem? he]
    · rw [exec_halted i he' hh, set_self_of_getElem? he']
  · have hrun : e.halted = false := by simpa using hh
    rw [exec_running i ⟨he, hrun⟩, exec_running i ⟨he', hrun⟩]
    cases hf : faultOf s.cfg.memSize e i with
    | some c => exact ⟨e.raise c, s.mem, rfl, rfl, .raise i e c⟩
    | none =>
      obtain ⟨e', m, heffect, hbeside, hframe⟩ := effect_beside i he he'
      exact ⟨e', m, congrArg _ heffect, congrArg _ hbeside, hframe⟩

end Beside

/-- Settles O43: a command writes its own engine and memory, and of its engine the registers its row allows. -/
theorem commandRegisterFrame : Obligations.CommandRegisterFrame := by
  unfold Obligations.CommandRegisterFrame
  intro i s t ht
  obtain ⟨e, he, -⟩ := exec_next ht
  obtain ⟨e', m, hexec, -, haddr, hlen, hval, hresult, hh, hbuf, hcontext⟩ := exec_beside i he he
  cases ht.symm.trans hexec
  exact ⟨e, e', he, withEngine_selected he, haddr, hlen, hval, hresult, hh, hbuf, hcontext,
    fun j hj => withEngine_other s e' hj, by simp, rfl, rfl, rfl, rfl, rfl⟩

/-- Settles O45: beside any other instances the command leaves the same engine and memory. -/
theorem instancesAreIndependent : Obligations.InstancesAreIndependent := by
  unfold Obligations.InstancesAreIndependent
  intro i s t others hothers ht
  obtain ⟨e, he, -⟩ := exec_next ht
  have he' := hothers.trans he
  obtain ⟨e', m, hexec, hbeside, -⟩ := exec_beside i he he'
  cases ht.symm.trans hexec
  refine ⟨_, hbeside, rfl, ?_, fun j hj => ⟨withEngine_other s e' hj, ?_⟩⟩
  · exact (withEngine_selected (s := { s with engines := others }) he').trans (withEngine_selected he).symm
  · exact withEngine_other { s with engines := others } e' hj

/-! ### The run -/

/-- No host operation rewrites the program or moves the position (10_state.md R21). -/
theorem HostChange.run_eq {s t : State} {op : HostOp} (h : HostChange s op t) : t.prog = s.prog ∧ t.pos = s.pos := by
  cases h with
  | issued _ ht =>
    obtain ⟨e', m, rfl⟩ := issue_frame ht
    exact ⟨rfl, rfl⟩
  | issuedTogether _ ht =>
    obtain ⟨-, -, hprog, hpos, -⟩ := issueEach_frame ht
    exact ⟨hprog, hpos⟩
  | loaded | registerRead | registerWritten | instanceReset | stored => exact ⟨rfl, rfl⟩

/-- Settles O7: the step takes the operation off and counts it, and the operation changes neither. -/
theorem positionAdvancesByOne : Obligations.PositionAdvancesByOne := by
  unfold Obligations.PositionAdvancesByOne
  intro s t ht
  obtain ⟨hp, rfl⟩ | ⟨op, rest, hp, hchange⟩ := step_next ht
  · exact ⟨by simp [hp], fun _ => rfl⟩
  · refine ⟨fun op' rest' hp' => ?_, by simp [hp]⟩
    cases hp.symm.trans hp'
    exact hchange.run_eq

/-- Settles O6: the CMD write reaches the engine (`hostWrite_cmd`), and its value is the command's (`issue_decoded`). -/
theorem stepRunsDecodedCommand : Obligations.StepRunsDecodedCommand := by
  unfold Obligations.StepRunsDecodedCommand
  intro s inst v rest e i hp he hv
  calc step s = perform (.write { inst := inst, off := 0x00, bytes := 8 } v) (s.advance rest) := step_op hp
    _ = issue v { s.advance rest with sel := inst } := hostWrite_cmd v he
    _ = exec i { s.advance rest with sel := inst } := issue_decoded hv he

/-! ### Reset -/

/-- Settles O9: every engine of the reset state, and the one a reset event names, is `Engine.reset`. -/
theorem resetSetsEveryRegister : Obligations.ResetSetsEveryRegister := by
  unfold Obligations.ResetSetsEveryRegister
  intro isReset
  have hbuf (k : Nat) (hk : k < 64) : Engine.reset.buf[k] = 0x00 := Vector.getElem_replicate hk
  have hreset : isReset Engine.reset :=
    ⟨rfl, rfl, rfl, rfl, rfl, rfl, rfl, rfl, hbuf, rfl, rfl, rfl, rfl⟩
  refine ⟨fun e he => List.eq_of_mem_replicate he ▸ hreset, fun s i rest hi hp => ?_⟩
  have hstep : step s = .next { s.advance rest with engines := s.engines.set i Engine.reset } :=
    (step_op hp).trans (if_pos hi)
  exact ⟨_, Engine.reset, hstep, by simp [hi], hreset, fun j hj => by simp [Ne.symm hj], fun _ => rfl⟩

end Sys2Proof.Machine
end

section
/-! PROOF. Host accesses to the register block (10_state.md R33 to R40), by offset and by bus address. -/

namespace Sys2Proof.Machine

/-! ### Values of several fields -/

/-- Fields side by side in one register value: the bits do not meet, so the value is a sum. -/
theorem toNat_or_shiftLeft {lo hi : Dword} {k : Nat} (hlo : lo.toNat < 2 ^ k) (hhi : hi.toNat * 2 ^ k < 2 ^ 64) :
    (lo ||| hi <<< k).toNat = lo.toNat + 2 ^ k * hi.toNat := by
  rw [BitVec.toNat_or, BitVec.toNat_shiftLeft, Nat.shiftLeft_eq, Nat.mod_eq_of_lt hhi, Nat.or_comm, Nat.mul_comm,
    ← Nat.two_pow_add_eq_or_of_lt hlo, Nat.add_comm]

/-- STATUS as a sum (10_state.md R34). -/
theorem status_toNat (e : Engine) :
    e.status.toNat = e.phase.code.toNat + 4 * e.halted.toNat + 256 * e.faultCode.code.toNat := by
  have hphase := e.phase.code.isLt
  have hhalted := e.halted.toNat_lt
  have hcode := e.faultCode.code.isLt
  have hlow : (e.phase.code.setWidth 64 ||| (BitVec.ofBool e.halted).setWidth 64 <<< 2).toNat =
      e.phase.code.toNat + 4 * e.halted.toNat := by
    rw [toNat_or_shiftLeft] <;> simp <;> omega
  rw [Engine.status, toNat_or_shiftLeft (by omega) (by simp; omega), hlow, BitVec.toNat_setWidth_of_le (by decide)]
  rfl

/-- A pair of chaining words as a sum (10_state.md R36). -/
theorem wordPair_toNat (lo hi : Word) : (wordPair lo hi).toNat = lo.toNat + 2 ^ 32 * hi.toNat := by
  have hlo := lo.isLt
  have hhi := hi.isLt
  rw [wordPair, toNat_or_shiftLeft] <;> simp <;> omega

/-! ### By offset -/

/-- Settles O49: register by register, and 0 where `regAt` finds none. -/
theorem registerReads : Obligations.RegisterReads := by
  unfold Obligations.RegisterReads
  intro s inst off e he hoff hmul phase code value
  have hphase : e.phase.code.toNat = phase := by cases hp : e.phase <;> simp [phase, hp, Phase.code]
  have hcode : e.faultCode.code.toNat = code := by cases hc : e.faultCode <;> simp [code, hc, FaultCode.code]
  have hhalted : e.halted.toNat = if e.halted then 1 else 0 := by cases e.halted <;> rfl
  have hvalue : (e.readOffset off).toNat = value := by
    cases hr : regAt off with
    | none =>
      have hne (r : Reg) : off ≠ regOffset r := fun h => by simp [h] at hr
      have hvalue : value = 0 :=
        (if_neg (hne .addr)).trans <| (if_neg (hne .len)).trans <| (if_neg (hne .val)).trans <|
          (if_neg (hne .result)).trans <| (if_neg (hne .status)).trans <| (if_neg (hne .count)).trans <|
          (if_neg (hne .h01)).trans <| if_neg (hne .h23)
      simp [Engine.readOffset, hr, hvalue]
    | some r =>
      cases regAt_eq_some.mp hr
      rw [readOffset_regOffset]
      cases r with
      | cmd | addr | len | val | result | count => rfl
      | status => exact (status_toNat e).trans (by rw [hphase, hcode, hhalted]; rfl)
      | h01 | h23 => exact wordPair_toNat _ _
  rw [← hvalue, BitVec.ofNat_toNat, BitVec.setWidth_eq]
  exact hostRead_whole he hoff hmul

/-- Settles O50: the write of each offset, by `hostWrite_whole`. -/
theorem operandWrites : Obligations.OperandWrites := by
  unfold Obligations.OperandWrites
  intro s inst e v he
  exact ⟨hostWrite_whole v he (by decide) rfl (by decide), hostWrite_whole v he (by decide) rfl (by decide),
    hostWrite_whole v he (by decide) rfl (by decide)⟩

/-- Settles O51: the write leaves the engine as it was, the read finds no register, the access is no whole one. -/
theorem ignoredAndRefusedAccesses : Obligations.IgnoredAndRefusedAccesses := by
  unfold Obligations.IgnoredAndRefusedAccesses
  intro s inst off bytes e v he hoff
  refine ⟨fun hread hmul => ?_, fun hreserved hmul => ?_, fun hpartial => ?_⟩
  · refine (hostWrite_whole v he hoff hmul (by omega)).trans ?_
    rw [writeOffset_readOnly e v hread]
    exact congrArg _ (withEngine_self (s := { s with sel := inst }) he)
  · rw [← readOffset_reserved e hreserved]
    exact hostRead_whole he hoff hmul
  · have hnot : ¬ (bytes = 8 ∧ off % 8 = 0) := by omega
    simp only [perform, hostWrite, hostRead]
    exact ⟨onAccess_partial he _ hoff hnot, onAccess_partial he _ hoff hnot⟩

/-! ### By bus address -/

/-- Where the blocks do not overlap, no earlier block holds an address of block i. -/
theorem locateFrom_base {bases : List Nat} {i base off : Nat} (n : Nat)
    (hapart : bases.Pairwise fun a b => a + Config.blockSize ≤ b ∨ b + Config.blockSize ≤ a)
    (hbase : bases[i]? = some base) (hoff : off < Config.blockSize) :
    locateFrom bases n (base + off) = some (n + i, off) := by
  induction bases generalizing i n with
  | nil => simp at hbase
  | cons b bases ih =>
    obtain ⟨hb, htail⟩ := List.pairwise_cons.mp hapart
    cases i with
    | zero =>
      cases hbase
      simp [locateFrom, hoff]
    | succ i =>
      have hmem : base ∈ bases := List.mem_of_getElem? hbase
      have hother : ¬ (b ≤ base + off ∧ base + off < b + Config.blockSize) := by
        have := hb base hmem
        omega
      rw [locateFrom, if_neg hother, ih (n + 1) htail hbase, Nat.add_right_comm, Nat.add_assoc]

theorem busAccess_base {c : Config} (hc : c.wf) {i base off : Nat} (bytes : Nat) (hbase : c.engineBase[i]? = some base)
    (hoff : off < Config.blockSize) :
    busAccess c (base + off) bytes = some { inst := i, off := off, bytes := bytes } := by
  obtain ⟨-, -, -, hapart⟩ := hc
  rw [busAccess, locateFrom_base 0 hapart hbase hoff, Nat.zero_add]

/-- Settles O52: the bus address is found in block i at the offset. -/
theorem busAddressReachesRegister : Obligations.BusAddressReachesRegister := by
  unfold Obligations.BusAddressReachesRegister
  intro s i off bytes base v hwf hbase hoff
  have haccess := busAccess_base hwf bytes hbase hoff
  simp only [perform, haccess, and_self]

end Sys2Proof.Machine
end

section
/-! PROOF. Host memory (20_memory.md R45 to R57): the range check, what a command stores, and what is read back. -/

namespace Sys2Proof.Machine

/-! ### The range check -/

/-- A command that passes the phase check and whose last byte is at or beyond MEM_SIZE faults RANGE (20_memory.md
R50). -/
theorem faultOf_range {memSize : Nat} {e : Engine} {i : Instr}
    (hopen : needsOpenPhase i = true → e.phase.isActive = true) (hbytes : 0 < memBytes e i)
    (hbeyond : memSize < e.addr.toNat + memBytes e i) : faultOf memSize e i = some .range := by
  have hphase : ¬ (needsOpenPhase i && !e.phase.isActive) = true := by simpa using hopen
  have halign : ¬ (i = .misaligned ∧ isPow2 e.len = false) := by
    rintro ⟨rfl, -⟩
    exact absurd hbytes (Nat.lt_irrefl 0)
  have hrange : ¬ inRange memSize e.addr.toNat (memBytes e i) = true := by
    rw [inRange_iff]
    omega
  rw [faultOf, if_neg hphase, if_neg halign, if_neg hrange]

/-- The commands that need an open phase, as a list (60_exceptions.md R155). -/
theorem needsOpenPhase_iff (i : Instr) : needsOpenPhase i = true ↔ i ∈ [Instr.update, .finalize, .compress] := by
  cases i <;> decide

/-- Settles O13: ADDR is below 2^64, so the range has a byte, and it ends beyond every MEM_SIZE. -/
theorem addressesDoNotWrap : Obligations.AddressesDoNotWrap := by
  unfold Obligations.AddressesDoNotWrap
  intro s e i hrun hsize hphase bytes hbeyond
  have hbytes : bytes = memBytes e i := by cases i <;> rfl
  have haddr := e.addr.isLt
  have hopen (h : needsOpenPhase i = true) : e.phase.isActive = true :=
    (isActive_iff _).mpr (hphase ((needsOpenPhase_iff i).mp h))
  have hfault : faultOf s.cfg.memSize e i = some .range := faultOf_range hopen (by omega) (by omega)
  rw [exec_running i hrun, hfault]
  rfl

/-! ### What a command stores -/

/-- A command that runs and raises no fault has its effect. -/
theorem exec_noFault {i : Instr} {s : State} {e : Engine} (hrun : s.Running e)
    (hf : faultOf s.cfg.memSize e i = none) : exec i s = .next (effect s e i) := by rw [exec_running i hrun, hf]

/-- A command depends on its engine and the bytes it accesses, and stores no more than its row lets it (20_memory.md R46):
on every machine with the same engine and the same bytes in its range it leaves the same engine and stores the same bytes
at ADDR. -/
theorem effect_local (m : Memory) (e : Engine) (i : Instr) :
    ∃ (e' : Engine) (data : List Byte), data.length = (if writesMemory i then memBytes e i else 0) ∧
      ∀ s : State, s.engines[s.sel]? = some e →
        s.mem.read e.addr.toNat (memBytes e i) = m.read e.addr.toNat (memBytes e i) →
        effect s e i =
          { s with engines := s.engines.set s.sel e', mem := s.mem.write e.addr.toNat data } := by
  cases i with
  | init | misaligned => exact ⟨_, [], rfl, fun s _ _ => rfl⟩
  | update | compress | ldLe32 | ldBe32 | ldLe64 | ldBe64 =>
    apply Exists.intro -- the engine is the one `effect` leaves where it reads `m`
    refine ⟨[], rfl, fun s _ hread => ?_⟩
    simp only [memBytes] at hread
    simp only [effect, hread]
    rfl
  | finalize => exact ⟨_, _, rfl, fun s _ _ => effect_finalize s e⟩
  | stLe32 | stBe32 => exact ⟨e, _, rfl, fun s he _ => by rw [set_self_of_getElem? he]; rfl⟩
  | stLe64 => exact ⟨e, _, le64bytes_length e.val, fun s he _ => by rw [set_self_of_getElem? he]; rfl⟩
  | stBe64 => exact ⟨e, _, be64bytes_length e.val, fun s he _ => by rw [set_self_of_getElem? he]; rfl⟩

/-- Memory after any command: bytes stored at ADDR by the commands that write memory, and nothing else. -/
theorem exec_mem {i : Instr} {s t : State} {e : Engine} (he : s.engines[s.sel]? = some e) (ht : exec i s = .next t) :
    ∃ data : List Byte, t.mem = s.mem.write e.addr.toNat data ∧
      data.length ≤ if writesMemory i then memBytes e i else 0 := by
  obtain ⟨f, hf, hcase⟩ := exec_next ht
  cases he.symm.trans hf
  obtain ⟨-, rfl⟩ | ⟨-, ⟨c, -, rfl⟩ | ⟨-, rfl⟩⟩ := hcase
  · exact ⟨[], rfl, Nat.zero_le _⟩
  · exact ⟨[], rfl, Nat.zero_le _⟩
  · obtain ⟨e', data, hlen, heffect⟩ := effect_local s.mem e i
    exact ⟨data, by rw [heffect s he rfl], hlen.le⟩

/-- Settles O44: the bytes stored lie in the range of the command's row, empty for a command that stores none. -/
theorem commandMemoryFrame : Obligations.CommandMemoryFrame := by
  unfold Obligations.CommandMemoryFrame
  intro i s t e a he ht
  obtain ⟨data, hmem, hlen⟩ := exec_mem he ht
  have outside (n : Nat) (hn : (if writesMemory i then memBytes e i else 0) ≤ n)
      (ha : a < e.addr.toNat ∨ e.addr.toNat + n ≤ a) : t.mem.readByte a = s.mem.readByte a := by
    rw [hmem]
    exact readByte_write_outside _ _ _ (by omega)
  refine ⟨fun hi => ?_, fun hi => ?_, fun hi => ?_, fun hi => ?_⟩
  · refine outside 0 ?_ (by omega)
    cases i <;> simp_all [writesMemory]
  · subst hi
    exact outside 16 le_rfl
  · refine outside 4 ?_
    cases i <;> simp_all [writesMemory, memBytes]
  · refine outside 8 ?_
    cases i <;> simp_all [writesMemory, memBytes]

/-! ### Reading back -/

/-- A read within the bytes just written gives that part of them (20_memory.md R54). -/
theorem read_write_part {m : Memory} (hm : m.wf) (addr : Nat) {data : List Byte} {k n : Nat}
    (hfit : k + n ≤ data.length) : (m.write addr data).read (addr + k) n = (data.drop k).take n := by
  refine List.ext_getElem (by simp; omega) fun j hj _ => ?_
  have hjn : j < n := by simpa using hj
  rw [read_getElem, Nat.add_assoc, readByte_write_inside hm addr data (by omega)]
  simp

/-- The bytes of a value are those of its low half, then those of its high half (40_byteorder.md R82, R83). -/
theorem le64bytes_halves (v : Dword) :
    le64bytes v = le32bytes (v.extractLsb' 0 32) ++ le32bytes (v.extractLsb' 32 32) := by
  have byte (start k : Nat) (hk : k + 8 ≤ 32) :
      (v.extractLsb' start 32).extractLsb' k 8 = v.extractLsb' (start + k) 8 := by
    ext j hj
    have hlt : k + j < 32 := by omega
    simp [Nat.add_assoc, hlt]
  simp [le64bytes, le32bytes, List.range_succ, byte]

/-- `le32` undoes `le32bytes` (40_byteorder.md R84): bit i of the value is bit i mod 8 of byte i div 8. -/
theorem le32_le32bytes (v : Word) : le32 (le32bytes v) = v := by
  ext i hi
  simp only [le32, le32bytes]
  grind

/-- LD_LE32 of bytes that are those of a value returns it (40_byteorder.md R86). -/
theorem ldLe32_reads {s : State} {e : Engine} {w : Word} (hrun : s.Running e)
    (hfit : e.addr.toNat + 4 ≤ s.cfg.memSize) (hbytes : s.mem.read e.addr.toNat 4 = le32bytes w) :
    ∃ u e', exec .ldLe32 s = .next u ∧ u.engines[s.sel]? = some e' ∧ e'.result.toNat = w.toNat := by
  have hin : inRange s.cfg.memSize e.addr.toNat 4 = true := inRange_iff.mpr (.inr hfit)
  have ⟨hselected, _⟩ := hrun
  refine ⟨_, _, (loadCommand_running 4 _ hrun).trans (if_pos hin), withEngine_selected hselected, ?_⟩
  rw [hbytes, le32_le32bytes]
  exact BitVec.toNat_setWidth_of_le (by decide)

/-- Settles O23: the 8 bytes of VAL are those of its halves, and the load reads the first or the last 4 of them. -/
theorem mixedWidthSeesSameBytes : Obligations.MixedWidthSeesSameBytes := by
  unfold Obligations.MixedWidthSeesSameBytes
  intro s t e f hrun hwf hsize hfit ht hf
  have hin : inRange s.cfg.memSize e.addr.toNat 8 = true := inRange_iff.mpr (.inr hfit)
  have hstore : exec .stLe64 s = .next (s.storeAtAddr e (le64bytes e.val)) :=
    (storeCommand_running _ hrun).trans (if_pos (by rwa [le64bytes_length]))
  cases ht.symm.trans hstore
  obtain ⟨hselected, -⟩ := hrun
  have hloads : ((s.storeAtAddr e (le64bytes e.val)).withEngine f).Running f := ⟨withEngine_selected hselected, hf⟩
  have hread (k : Nat) (hk : k + 4 ≤ 8) :
      (s.mem.write e.addr.toNat (le64bytes e.val)).read (e.addr.toNat + k) 4 = ((le64bytes e.val).drop k).take 4 :=
    read_write_part hwf _ (by simpa using hk)
  have hlow : (e.val.extractLsb' 0 32).toNat = e.val.toNat % 2 ^ 32 := by simp
  have hhigh : (e.val.extractLsb' 32 32).toNat = e.val.toNat / 2 ^ 32 := by
    have := e.val.isLt
    simp [Nat.shiftRight_eq_div_pow]
    omega
  rw [← hlow, ← hhigh]
  refine ⟨fun haddr => ldLe32_reads hloads ?_ ?_, fun haddr => ?_⟩
  · rw [haddr]
    exact Nat.le_trans (Nat.add_le_add_left (by decide) _) hfit
  · rw [haddr]
    exact (hread 0 (by decide)).trans (by rw [le64bytes_halves]; rfl)
  · have haddr' : f.addr.toNat = e.addr.toNat + 4 := by
      rw [haddr, BitVec.toNat_add]
      exact Nat.mod_eq_of_lt (by simp; omega)
    refine ldLe32_reads hloads ?_ ?_
    · rw [haddr']
      exact hfit
    · rw [haddr']
      exact (hread 4 (by decide)).trans (by rw [le64bytes_halves]; rfl)

/-! ### Stores that share no byte -/

/-- One byte after `MemWrite` depends on that byte before. -/
theorem readByte_write_congr {m m' : Memory} (hm : m.wf) (hm' : m'.wf) (addr : Nat) (data : List Byte) {k : Nat}
    (h : m.readByte k = m'.readByte k) : (m.write addr data).readByte k = (m'.write addr data).readByte k := by
  by_cases hk : k < addr ∨ addr + data.length ≤ k
  · rw [readByte_write_outside _ _ _ hk, readByte_write_outside _ _ _ hk, h]
  · obtain ⟨j, rfl⟩ := Nat.exists_eq_add_of_le (show addr ≤ k by omega)
    have hj : j < data.length := by omega
    rw [readByte_write_inside hm addr data hj, readByte_write_inside hm' addr data hj]

/-- Stores that share no byte commute. -/
theorem write_comm {m : Memory} (hm : m.wf) {a b : Nat} {s t : List Byte}
    (hapart : ∀ k, b ≤ k ∧ k < b + t.length → k < a ∨ a + s.length ≤ k) :
    (m.write a s).write b t = (m.write b t).write a s := by
  refine memory_ext (write_wf (write_wf hm _ _) _ _) (write_wf (write_wf hm _ _) _ _) fun k => ?_
  by_cases hk : b ≤ k ∧ k < b + t.length
  · rw [readByte_write_outside (m.write b t) a s (hapart k hk)]
    exact readByte_write_congr (write_wf hm a s) hm b t (readByte_write_outside m a s (hapart k hk))
  · have hout : k < b ∨ b + t.length ≤ k := by omega
    rw [readByte_write_outside (m.write a s) b t hout]
    exact readByte_write_congr hm (write_wf hm b t) a s (readByte_write_outside m b t hout).symm

/-! ### The host's own accesses -/

/-- Settles O53: a store in range is `MemWrite`, and a load reads one byte, in range exactly below MEM_SIZE. -/
theorem hostStoreAndLoad : Obligations.HostStoreAndLoad := by
  unfold Obligations.HostStoreAndLoad
  intro s addr data hwf
  refine ⟨fun hfit => ?_, fun hlt => ?_, fun hge => ?_⟩
  · have hin : inRange s.cfg.memSize addr data.length = true := inRange_iff.mpr (.inr hfit)
    exact ⟨s.mem.write addr data, if_pos hin, fun k hk => readByte_write_inside hwf addr data hk,
      fun a ha => readByte_write_outside s.mem addr data ha⟩
  · have hin : inRange s.cfg.memSize addr 1 = true := inRange_iff.mpr (.inr hlt)
    exact (if_pos hin).trans (by rw [BitVec.ofNat_toNat])
  · have hout : ¬ inRange s.cfg.memSize addr 1 = true := by
      rw [inRange_iff]
      omega
    exact if_neg hout

end Sys2Proof.Machine
end

section
/-! PROOF. Commands of several instances at once (20_memory.md R60): what a CMD write does depends on its own engine and
footprint only, so that commands which do not race commute. -/

namespace Sys2Proof.Machine

/-! ### Footprints and races -/

/-- A CMD write accesses memory exactly where it is a command that runs and raises no fault (assumption log 8). -/
theorem footprint_eq_some {memSize : Nat} {e : Engine} {v : Dword} {p : Footprint} :
    footprint memSize e v = some p ↔
      e.halted = false ∧ ∃ i, decode v = .ok i ∧ faultOf memSize e i = none ∧
        p = { lo := e.addr.toNat, bytes := memBytes e i, writes := writesMemory i } := by
  cases hh : e.halted
  case true => simp [footprint, hh]
  case false =>
    cases hv : decode v with
    | error x => simp [footprint, hh, hv]
    | ok i => cases hf : faultOf memSize e i <;> simp [footprint, hh, hv, hf, eq_comm]

theorem footprintOf_eq_some {s : State} {c : Nat × Dword} {p : Footprint} :
    s.footprintOf c = some p ↔ ∃ e, s.engines[c.1]? = some e ∧ footprint s.cfg.memSize e c.2 = some p := by
  cases he : s.engines[c.1]? <;> simp [State.footprintOf, he]

/-- The footprint of a command that runs (20_memory.md R46). -/
theorem footprintOf_running {s : State} {c : Nat × Dword} {e : Engine} {i : Instr} (he : s.engines[c.1]? = some e)
    (hrun : e.halted = false) (hi : decode c.2 = .ok i) (hf : faultOf s.cfg.memSize e i = none) :
    s.footprintOf c = some { lo := e.addr.toNat, bytes := memBytes e i, writes := writesMemory i } :=
  footprintOf_eq_some.mpr ⟨e, he, footprint_eq_some.mpr ⟨hrun, i, hi, hf, rfl⟩⟩

/-- Two ranges conflict when they share a byte and one of them is written. -/
theorem conflicts_iff {p q : Footprint} :
    p.conflicts q = true ↔ (p.writes = true ∨ q.writes = true) ∧
      ∃ x, (p.lo ≤ x ∧ x < p.lo + p.bytes) ∧ q.lo ≤ x ∧ x < q.lo + q.bytes := by
  have hshared : (∃ x, (p.lo ≤ x ∧ x < p.lo + p.bytes) ∧ q.lo ≤ x ∧ x < q.lo + q.bytes) ↔
      max p.lo q.lo < min (p.lo + p.bytes) (q.lo + q.bytes) :=
    ⟨fun ⟨x, hx⟩ => by omega, fun h => ⟨max p.lo q.lo, by omega⟩⟩
  rw [hshared, Footprint.conflicts, Bool.and_eq_true, Bool.or_eq_true, decide_eq_true_iff]

theorem races_iff {s : State} {c d : Nat × Dword} :
    s.races c d = true ↔ ∃ p q, s.footprintOf c = some p ∧ s.footprintOf d = some q ∧ p.conflicts q = true := by
  cases hp : s.footprintOf c <;> cases hq : s.footprintOf d <;> simp [State.races, hp, hq]

theorem races_comm (s : State) (c d : Nat × Dword) : s.races c d = s.races d c := by
  have swap {c d : Nat × Dword} (h : s.races c d = true) : s.races d c = true := by
    obtain ⟨p, q, hp, hq, hconf⟩ := races_iff.mp h
    obtain ⟨hwrites, x, hxp, hxq⟩ := conflicts_iff.mp hconf
    exact races_iff.mpr ⟨q, p, hq, hp, conflicts_iff.mpr ⟨hwrites.symm, x, hxq, hxp⟩⟩
  exact Bool.eq_iff_iff.mpr ⟨swap, swap⟩

theorem raceFree_iff {s : State} {cmds : List (Nat × Dword)} :
    s.raceFree cmds = true ↔ cmds.Pairwise fun c d => s.races c d = false := by
  induction cmds with
  | nil => simp [State.raceFree]
  | cons c cmds ih => simp [State.raceFree, ih]

/-- Every command is read back from its word (30_encoding.md R73). -/
theorem decode_encodeCmd (i : Instr) : decode (encodeCmd i) = .ok i := by cases i <;> decide

/-- Settles O48: both commands have footprints, which conflict at the shared byte. -/
theorem racesAreRefused : Obligations.RacesAreRefused := by
  unfold Obligations.RacesAreRefused
  intro s i j x e f a b hne he hf hrun hrun' hfault hfault' hwrites hlo hhi hlo' hhi'
  have hfoot := footprintOf_running (c := (i, encodeCmd a)) he hrun (decode_encodeCmd a) hfault
  have hfoot' := footprintOf_running (c := (j, encodeCmd b)) hf hrun' (decode_encodeCmd b) hfault'
  have hrace : s.races (i, encodeCmd a) (j, encodeCmd b) = true :=
    races_iff.mpr ⟨_, _, hfoot, hfoot', conflicts_iff.mpr ⟨hwrites, x, ⟨hlo, hhi⟩, hlo', hhi'⟩⟩
  have hi := (List.getElem?_eq_some_iff.mp he).1
  have hj := (List.getElem?_eq_some_iff.mp hf).1
  simp [perform, issueTogether, State.raceFree, hne, hrace, hi, hj]

/-! ### The change a CMD write makes -/

/-- What a CMD write leaves: its engine, and the bytes it stores. -/
structure Change where
  inst : Nat
  engine : Engine
  addr : Nat
  data : List Byte

/-- The machine after the change, its engine the selected one. -/
def Change.apply (x : Change) (s : State) : State :=
  { s with sel := x.inst, engines := s.engines.set x.inst x.engine, mem := s.mem.write x.addr x.data }

/-- The machine `u` looks to a CMD write as `s` does: the parameters, its engine and the bytes of its footprint. -/
def State.AlikeFor (s : State) (c : Nat × Dword) (u : State) : Prop :=
  u.cfg = s.cfg ∧ u.engines[c.1]? = s.engines[c.1]? ∧
    ∀ p, s.footprintOf c = some p → u.mem.read p.lo p.bytes = s.mem.read p.lo p.bytes

/-- On every machine that looks as `s` does, the CMD write makes the change `x`, and what it stores is its footprint. -/
structure State.Issues (s : State) (c : Nat × Dword) (x : Change) : Prop where
  inst : x.inst = c.1
  stored : x.data = [] ∨ s.footprintOf c = some { lo := x.addr, bytes := x.data.length, writes := true }
  issue : ∀ u, s.AlikeFor c u → issue c.2 { u with sel := c.1 } = .next (x.apply u)

theorem State.AlikeFor.refl (s : State) (c : Nat × Dword) : s.AlikeFor c s := ⟨rfl, rfl, fun _ _ => rfl⟩

theorem State.AlikeFor.footprintOf_eq {s u : State} {c : Nat × Dword} (h : s.AlikeFor c u) :
    u.footprintOf c = s.footprintOf c := by
  obtain ⟨hcfg, hengine, -⟩ := h
  simp only [State.footprintOf, hcfg, hengine]

theorem State.AlikeFor.trans {s u w : State} {c : Nat × Dword} (h : s.AlikeFor c u) (h' : u.AlikeFor c w) :
    s.AlikeFor c w := by
  have hfoot := h.footprintOf_eq
  obtain ⟨hcfg, hengine, hread⟩ := h
  obtain ⟨hcfg', hengine', hread'⟩ := h'
  exact ⟨hcfg'.trans hcfg, hengine'.trans hengine, fun p hp => (hread' p (hfoot.trans hp)).trans (hread p hp)⟩

theorem State.Issues.of_alike {s u : State} {c : Nat × Dword} {x : Change} (h : s.Issues c x) (hu : s.AlikeFor c u) :
    u.Issues c x :=
  ⟨h.inst, hu.footprintOf_eq ▸ h.stored, fun w hw => h.issue w (hu.trans hw)⟩

theorem State.Issues.next {s : State} {c : Nat × Dword} {x : Change} (h : s.Issues c x) :
    Machine.issue c.2 { s with sel := c.1 } = .next (x.apply s) := h.issue s (.refl s c)

/-- A CMD write that only writes its engine, whatever memory holds. -/
theorem issues_of_withEngine {s : State} {c : Nat × Dword} {e e' : Engine} (he : s.engines[c.1]? = some e)
    (h : ∀ u : State, u.cfg = s.cfg → u.engines[u.sel]? = some e → issue c.2 u = .next (u.withEngine e')) :
    s.Issues c { inst := c.1, engine := e', addr := 0, data := [] } := by
  refine ⟨rfl, .inl rfl, fun u hu => ?_⟩
  obtain ⟨hcfg, hengine, -⟩ := hu
  exact h { u with sel := c.1 } hcfg (hengine.trans he)

/-- Every CMD write to an engine that exists makes such a change: it is ignored, it faults, or it is a command's effect
(`effect_local`). -/
theorem exists_issues {s : State} {c : Nat × Dword} (hc : c.1 < s.engines.length) : ∃ x, s.Issues c x := by
  obtain ⟨e, he⟩ : ∃ e, s.engines[c.1]? = some e := ⟨_, List.getElem?_eq_getElem hc⟩
  by_cases hh : e.halted = true
  · refine ⟨_, issues_of_withEngine he (e' := e) fun u _ hu => ?_⟩
    rw [withEngine_self hu]
    exact onCommand_halted hu hh
  have hrun : e.halted = false := by simpa using hh
  cases hv : decode c.2 with
  | error x =>
    refine ⟨_, issues_of_withEngine he (e' := e.raise .illegal) fun u _ hu => ?_⟩
    rw [issue, onCommand_running ⟨hu, hrun⟩, hv]
    rfl
  | ok i =>
    cases hf : faultOf s.cfg.memSize e i with
    | some code =>
      refine ⟨_, issues_of_withEngine he (e' := e.raise code) fun u hcfg hu => ?_⟩
      rw [issue_decoded hv hu, exec_running i ⟨hu, hrun⟩, hcfg, hf]
    | none =>
      have hfoot := footprintOf_running he hrun hv hf
      obtain ⟨e', data, hlen, heffect⟩ := effect_local s.mem e i
      refine ⟨{ inst := c.1, engine := e', addr := e.addr.toNat, data := data }, rfl, ?_, fun u hu => ?_⟩
      · cases hw : writesMemory i
        · exact .inl (List.eq_nil_of_length_eq_zero (by simpa [hw] using hlen))
        · exact .inr (by rw [hfoot, hlen, hw]; rfl)
      · obtain ⟨hcfg, hengine, hread⟩ := hu
        have hu : ({ u with sel := c.1 } : State).engines[c.1]? = some e := hengine.trans he
        have hf : faultOf u.cfg.memSize e i = none := hcfg ▸ hf
        rw [issue_decoded hv hu, exec_noFault (s := { u with sel := c.1 }) ⟨hu, hrun⟩ hf]
        exact congrArg _ (heffect { u with sel := c.1 } hu (hread _ hfoot))

theorem State.Issues.engine {s : State} {c : Nat × Dword} {x : Change} (h : s.Issues c x)
    (hc : c.1 < s.engines.length) : (x.apply s).engines[c.1]? = some x.engine := by
  simp [Change.apply, h.inst, hc]

/-! ### Commands that do not race -/

section Pair
variable {s : State} {c d : Nat × Dword} {x y : Change} (hx : s.Issues c x) (hfree : s.races c d = false)
include hx hfree

/-- No byte of the second command's footprint is one the first command stores. -/
theorem State.Issues.apart {q : Footprint} (hq : s.footprintOf d = some q) {k : Nat}
    (hk : q.lo ≤ k ∧ k < q.lo + q.bytes) : k < x.addr ∨ x.addr + x.data.length ≤ k := by
  rcases hx.stored with hnil | hfoot
  · rw [hnil]
    exact Nat.lt_or_ge k x.addr
  · by_contra hin
    have hrace : s.races c d = true :=
      races_iff.mpr ⟨_, q, hfoot, hq, conflicts_iff.mpr ⟨.inl rfl, k, by simp only; omega, hk⟩⟩
    exact Bool.false_ne_true (hfree.symm.trans hrace)

/-- The two commands store no byte in common. -/
theorem State.Issues.stores_apart (hy : s.Issues d y) {k : Nat} (hk : y.addr ≤ k ∧ k < y.addr + y.data.length) :
    k < x.addr ∨ x.addr + x.data.length ≤ k := by
  rcases hy.stored with hnil | hfoot
  · simp only [hnil, List.length_nil] at hk
    omega
  · exact hx.apart hfree hfoot hk

/-- To the second command the machine looks the same before and after the first. -/
theorem State.Issues.alikeFor (hne : c.1 ≠ d.1) : s.AlikeFor d (x.apply s) := by
  refine ⟨rfl, ?_, fun q hq => read_congr fun k hk => ?_⟩
  · simp [Change.apply, hx.inst, hne]
  · exact readByte_write_outside _ _ _ (hx.apart hfree hq ⟨Nat.le_add_right _ _, by omega⟩)

end Pair

/-- Changes of different instances that store no byte in common commute, but for the selection. -/
theorem Change.apply_comm {s : State} {x y : Change} (hm : s.mem.wf) (hne : x.inst ≠ y.inst)
    (hapart : ∀ k, y.addr ≤ k ∧ k < y.addr + y.data.length → k < x.addr ∨ x.addr + x.data.length ≤ k) :
    { y.apply (x.apply s) with sel := x.inst } = x.apply (y.apply s) := by
  simp only [Change.apply, write_comm hm hapart, List.set_comm _ _ hne]

/-! ### Several CMD writes -/

/-- The CMD writes may run at once: to different instances that exist, and no two race (20_memory.md R60). -/
def State.MayRun (s : State) (cmds : List (Nat × Dword)) : Prop :=
  (∀ c ∈ cmds, c.1 < s.engines.length) ∧ cmds.Pairwise fun c d => c.1 ≠ d.1 ∧ s.races c d = false

theorem State.mayRun_iff {s : State} {cmds : List (Nat × Dword)} :
    s.MayRun cmds ↔
      (∀ c ∈ cmds, c.1 < s.engines.length) ∧ (cmds.map (·.1)).Nodup ∧ s.raceFree cmds = true := by
  rw [State.MayRun, List.pairwise_and_iff, raceFree_iff, List.Nodup, List.pairwise_map]

theorem State.MayRun.perm {s : State} {cmds cmds' : List (Nat × Dword)} (h : s.MayRun cmds) (hp : cmds.Perm cmds') :
    s.MayRun cmds' := by
  obtain ⟨hexist, hpairs⟩ := h
  refine ⟨fun c hc => hexist c (hp.mem_iff.mpr hc), (hp.pairwise_iff fun hcd => ?_).mp hpairs⟩
  exact ⟨hcd.1.symm, (races_comm s _ _).trans hcd.2⟩

/-- The rest may run at once after the first. -/
theorem State.MayRun.after {s : State} {c : Nat × Dword} {cmds : List (Nat × Dword)} {x : Change}
    (h : s.MayRun (c :: cmds)) (hx : s.Issues c x) : (x.apply s).MayRun cmds := by
  obtain ⟨hexist, hpairs⟩ := h
  obtain ⟨hhead, htail⟩ := List.pairwise_cons.mp hpairs
  have hfoot (d : Nat × Dword) (hd : d ∈ cmds) : (x.apply s).footprintOf d = s.footprintOf d :=
    (hx.alikeFor (hhead d hd).2 (hhead d hd).1).footprintOf_eq
  refine ⟨fun d hd => ?_, htail.imp_of_mem fun hd hd' hdd => ⟨hdd.1, ?_⟩⟩
  · simpa [Change.apply] using hexist d (List.mem_cons_of_mem c hd)
  · rw [← hdd.2, State.races, State.races, hfoot _ hd, hfoot _ hd']

/-- CMD writes one after another, with the selection put to `k` at the end. -/
def issueThenSelect (k : Nat) (cmds : List (Nat × Dword)) (s : State) : Out :=
  andThen (issueEach cmds s) fun t => .next { t with sel := k }

theorem issueThenSelect_cons {k : Nat} {c : Nat × Dword} {cmds : List (Nat × Dword)} {s : State} {x : Change}
    (hx : s.Issues c x) : issueThenSelect k (c :: cmds) s = issueThenSelect k cmds (x.apply s) := by
  rw [issueThenSelect, issueEach, hx.next]
  rfl

/-- The selection before is of no account. -/
theorem issueThenSelect_sel (k j : Nat) (cmds : List (Nat × Dword)) (s : State) :
    issueThenSelect k cmds { s with sel := j } = issueThenSelect k cmds s := by cases cmds <;> rfl

/-- Any order of CMD writes that may run at once has the same outcome: neighbours commute. -/
theorem issueThenSelect_perm {cmds cmds' : List (Nat × Dword)} (hp : cmds.Perm cmds') (k : Nat) {s : State}
    (hm : s.mem.wf) (h : s.MayRun cmds) : issueThenSelect k cmds s = issueThenSelect k cmds' s := by
  induction hp generalizing s with
  | nil => rfl
  | cons c hp ih =>
    have ⟨hexist, _⟩ := h
    obtain ⟨x, hx⟩ := exists_issues (hexist c (List.mem_cons_self ..))
    rw [issueThenSelect_cons hx, issueThenSelect_cons hx]
    exact ih (write_wf hm _ _) (h.after hx)
  | swap c d cmds =>
    obtain ⟨hexist, hpairs⟩ := h
    obtain ⟨hd, -⟩ := List.pairwise_cons.mp hpairs
    obtain ⟨hne, hfree⟩ := hd c (List.mem_cons_self ..)
    have hfree' : s.races c d = false := (races_comm s c d).trans hfree
    obtain ⟨x, hx⟩ := exists_issues (hexist c (by simp))
    obtain ⟨y, hy⟩ := exists_issues (hexist d (by simp))
    have hinst : x.inst ≠ y.inst := hx.inst ▸ hy.inst ▸ hne.symm
    have hx' : (y.apply s).Issues c x := hx.of_alike (hy.alikeFor hfree hne)
    have hy' : (x.apply s).Issues d y := hy.of_alike (hx.alikeFor hfree' hne.symm)
    calc issueThenSelect k (d :: c :: cmds) s
      _ = issueThenSelect k cmds (x.apply (y.apply s)) := by rw [issueThenSelect_cons hy, issueThenSelect_cons hx']
      _ = issueThenSelect k cmds (y.apply (x.apply s)) := by
        rw [← Change.apply_comm hm hinst fun _ => hx.stores_apart hfree' hy, issueThenSelect_sel]
      _ = issueThenSelect k (c :: d :: cmds) s := by rw [issueThenSelect_cons hx, issueThenSelect_cons hy']
  | trans hp _ ih ih' => exact (ih hm h).trans (ih' hm (h.perm hp))

theorem issueTogether_of_mayRun {s : State} {cmds : List (Nat × Dword)} (h : s.MayRun cmds) :
    issueTogether cmds s = issueThenSelect s.sel cmds s := by
  obtain ⟨hexist, hnodup, hfree⟩ := State.mayRun_iff.mp h
  have hnone : ¬ ∃ c ∈ cmds, s.engines.length ≤ c.1 := by simpa using hexist
  rw [issueTogether, if_neg hnone, if_neg (not_not.mpr hnodup), if_pos hfree]
  rfl

/-- Settles O47: the three tests do not depend on the order, and where they pass the outcome does not either. -/
theorem concurrentOrderMakesNoDifference : Obligations.ConcurrentOrderMakesNoDifference := by
  unfold Obligations.ConcurrentOrderMakesNoDifference
  intro s cmds cmds' hm hp
  have hexist : (∃ c ∈ cmds, s.engines.length ≤ c.1) ↔ ∃ c ∈ cmds', s.engines.length ≤ c.1 := by
    simp only [hp.mem_iff]
  have hnodup : (cmds.map (·.1)).Nodup ↔ (cmds'.map (·.1)).Nodup := (hp.map _).nodup_iff
  have hfree : s.raceFree cmds = s.raceFree cmds' := by
    rw [Bool.eq_iff_iff, raceFree_iff, raceFree_iff]
    exact hp.pairwise_iff fun hcd => (races_comm s _ _).trans hcd
  simp only [perform, issueTogether, ← hexist, ← hnodup, ← hfree]
  split_ifs with hnone hdistinct hrun
  · rfl
  · exact issueThenSelect_perm hp s.sel hm (State.mayRun_iff.mpr ⟨by simpa using hnone, hdistinct, hrun⟩)
  · rfl
  · rfl

/-- CMD writes that may run at once answer a next state, and each engine named in it is as its own command leaves it. -/
theorem issueEach_of_mayRun {cmds : List (Nat × Dword)} {s : State} (h : s.MayRun cmds) :
    ∃ t, issueEach cmds s = .next t ∧ ∀ c ∈ cmds, ∀ x, s.Issues c x → t.engines[c.1]? = some x.engine := by
  induction cmds generalizing s with
  | nil => exact ⟨s, rfl, nofun⟩
  | cons c cmds ih =>
    have ⟨hexist, hpairs⟩ := h
    obtain ⟨hhead, -⟩ := List.pairwise_cons.mp hpairs
    have hc := hexist c (List.mem_cons_self ..)
    obtain ⟨x, hx⟩ := exists_issues hc
    obtain ⟨t, ht, hengines⟩ := ih (h.after hx)
    refine ⟨t, ?_, fun d hd y hy => ?_⟩
    · rw [issueEach, hx.next]
      exact ht
    · rcases List.mem_cons.mp hd with rfl | hd
      · obtain ⟨-, -, -, -, -, hothers⟩ := issueEach_frame ht
        have hnot : d.1 ∉ cmds.map (·.1) := fun hmem => by
          obtain ⟨d', hd', heq⟩ := List.mem_map.mp hmem
          exact (hhead d' hd').1 heq.symm
        have hsame : x.apply s = y.apply s := Host.Outcome.next.inj (hx.next.symm.trans hy.next)
        rw [hothers d.1 hnot, hsame]
        exact hy.engine hc
      · exact hengines d hd y (hy.of_alike (hx.alikeFor (hhead d hd).2 (hhead d hd).1))

/-- Settles O55: no shared byte means no race, so the commands may run at once. -/
theorem concurrentCommandsTakeEffect : Obligations.ConcurrentCommandsTakeEffect := by
  unfold Obligations.ConcurrentCommandsTakeEffect
  intro s cmds hexist hnodup hshare
  have hfree : cmds.Pairwise fun c d => s.races c d = false := by
    refine hshare.imp fun {c d} hcd => Bool.eq_false_iff.mpr fun hrace => ?_
    obtain ⟨p, q, hp, hq, hconf⟩ := races_iff.mp hrace
    obtain ⟨e, he, hp⟩ := footprintOf_eq_some.mp hp
    obtain ⟨f, hf, hq⟩ := footprintOf_eq_some.mp hq
    obtain ⟨hrun, a, ha, hfault, rfl⟩ := footprint_eq_some.mp hp
    obtain ⟨hrun', b, hb, hfault', rfl⟩ := footprint_eq_some.mp hq
    obtain ⟨hwrites, x, ⟨hlo, hhi⟩, hlo', hhi'⟩ := conflicts_iff.mp hconf
    exact hcd e f a b x he hf hrun hrun' ha hb hfault hfault' hwrites ⟨hlo, hhi, hlo', hhi'⟩
  have hmay : s.MayRun cmds := State.mayRun_iff.mpr ⟨hexist, hnodup, raceFree_iff.mpr hfree⟩
  obtain ⟨t, ht, hengines⟩ := issueEach_of_mayRun hmay
  obtain ⟨-, -, -, -, -, hothers⟩ := issueEach_frame ht
  refine ⟨t, ht, ?_, fun c hc => ?_, hothers⟩
  · exact (issueTogether_of_mayRun hmay).trans (by rw [issueThenSelect, ht]; rfl)
  · obtain ⟨x, hx⟩ := exists_issues (hexist c hc)
    exact ⟨_, hx.next, (hengines c hc x hx).trans (hx.engine (hexist c hc)).symm⟩

end Sys2Proof.Machine
end

section
/-! PROOF. The command word (30_encoding.md R64 to R67): the decoder reads exactly the words of the opcode map. -/

namespace Sys2Proof

/-! ### The opcode map (R66) -/

/-- The map from opcode to command and the map from command to opcode are inverse to each other. -/
@[simp] theorem instrOfOpcode_eq_some {opc : BitVec 8} {i : Instr} :
    instrOfOpcode opc = some i ↔ opc = opcodeOf i := by
  constructor
  · intro h
    cases i <;> simp [instrOfOpcode, ite_eq_iff] at h <;> simp [opcodeOf, h]
  · rintro rfl
    cases i <;> rfl

/-! ### The fields of a value written to CMD (R64, R65) -/

/-- The high half, RSV and OPC together are the whole value. -/
theorem toNat_eq_fields (v : Dword) :
    v.toNat = 2 ^ 32 * (v.extractLsb' 32 32).toNat + 2 ^ 8 * (v.extractLsb' 8 24).toNat +
      (v.extractLsb' 0 8).toNat := by
  simp only [BitVec.extractLsb'_toNat, Nat.shiftRight_eq_div_pow]
  omega

/-- A command's word is its opcode with zeros above. -/
theorem encodeCmd_toNat (i : Instr) : (encodeCmd i).toNat = (opcodeOf i).toNat := by
  cases i <;> rfl

/-- What the decoder tests of a value before it answers a command (R73). -/
theorem fields_of_decode {v : Dword} {i : Instr} (h : decode v = .ok i) :
    v.extractLsb' 32 32 = 0#32 ∧ v.extractLsb' 8 24 = 0#24 ∧ v.extractLsb' 0 8 = opcodeOf i := by
  unfold decode at h
  split_ifs at h with hhigh hreserved
  cases hopc : instrOfOpcode (v.extractLsb' 0 8) with
  | none => simp [hopc] at h
  | some j =>
    obtain rfl : j = i := by simpa [hopc] using h
    exact ⟨not_not.mp hhigh, not_not.mp hreserved, instrOfOpcode_eq_some.mp hopc⟩

/-- A value is a command exactly when it is that command's word: the two reserved fields leave the opcode alone. -/
theorem decode_eq_ok_iff {v : Dword} {i : Instr} : decode v = .ok i ↔ v = encodeCmd i := by
  constructor
  · intro h
    obtain ⟨hhigh, hreserved, hopc⟩ := fields_of_decode h
    refine BitVec.eq_of_toNat_eq ?_
    rw [toNat_eq_fields, hhigh, hreserved, hopc, encodeCmd_toNat]
    simp
  · rintro rfl
    exact Machine.decode_encodeCmd i

/-- Settles O2: a value decodes to a command exactly when it is that command's word. -/
theorem decodeEncodeAgree : Obligations.DecodeEncodeAgree := by
  unfold Obligations.DecodeEncodeAgree
  exact ⟨Machine.decode_encodeCmd, fun _ _ => decode_eq_ok_iff.mp⟩

/-- Settles O1: the value of a command's word is its opcode, and each command stands once in the map. -/
theorem decodeIsTheOpcodeMap : Obligations.DecodeIsTheOpcodeMap := by
  unfold Obligations.DecodeIsTheOpcodeMap
  intro v i
  have hword : decode v = .ok i ↔ v.toNat = (opcodeOf i).toNat := by
    rw [decode_eq_ok_iff, ← encodeCmd_toNat, BitVec.toNat_inj]
  rw [hword]
  cases i <;> simp [opcodeOf]

/-! ### The host's table of words -/

/-- Every command is read back from its 32-bit word, as the host's table holds it. -/
theorem decodeTableWord_encode (i : Instr) : decodeTableWord 32 (encode i).toNat = some i := by
  cases i <;> decide

/-- Settles O3: five commands' words, and one that differs from UPDATE's in RSV. -/
theorem sampleWordsDecode : Obligations.SampleWordsDecode := by
  unfold Obligations.SampleWordsDecode
  exact ⟨decodeTableWord_encode .update, decodeTableWord_encode .compress, decodeTableWord_encode .ldBe64,
    decodeTableWord_encode .stLe32, decodeTableWord_encode .misaligned, by decide⟩

/-! ### The sub-fields of a byte-order opcode (R67) -/

section SubFields
variable (store : Bool) (w : Width) (e : Order)

/-- A load's or store's opcode is the one that its sub-fields make up. -/
theorem opcodeOf_byteOrderInstr :
    opcodeOf (byteOrderInstr store w e) = byteOrderOpcode store (w = .w64) (e = .big) := by
  cases store <;> cases w <;> cases e <;> rfl

/-- The sub-fields do not overlap, so that putting them together is a sum. -/
theorem byteOrderOpcode_toNat (wide big : Bool) :
    (byteOrderOpcode store wide big).toNat = 0x10 + 4 * store.toNat + 2 * wide.toNat + big.toNat := by
  cases store <;> cases wide <;> cases big <;> rfl

theorem writesMemory_byteOrderInstr : Machine.writesMemory (byteOrderInstr store w e) = store := by
  cases store <;> cases w <;> cases e <;> rfl

theorem memBytes_byteOrderInstr (x : Machine.Engine) :
    Machine.memBytes x (byteOrderInstr store w e) = if w = .w64 then 8 else 4 := by
  cases store <;> cases w <;> cases e <;> rfl

end SubFields

/-- Settles O4: the opcode by the sum of its sub-fields, the decoder by the inverse of the map. -/
theorem byteOrderOpcodeSubfields : Obligations.ByteOrderOpcodeSubfields := by
  unfold Obligations.ByteOrderOpcodeSubfields
  intro store w e
  refine ⟨?_, ?_, writesMemory_byteOrderInstr store w e, memBytes_byteOrderInstr store w e⟩
  · rw [opcodeOf_byteOrderInstr, byteOrderOpcode_toNat]
    simp [Bool.toNat, Bool.cond_eq_ite]
  · exact instrOfOpcode_eq_some.mpr (opcodeOf_byteOrderInstr store w e).symm

end Sys2Proof
end

section
/-! PROOF. The assembler's pseudo-instructions (30_encoding.md R76). -/

namespace Sys2Proof.Machine

/-- The four loads are one pseudo-instruction, whose order and width choose the command. -/
theorem assemble_ld (inst : Nat) (e : Order) (w : Width) (a : Dword) :
    assemble inst [.ld e w a] =
      some [.write { inst := inst, off := 0x08, bytes := 8 } a,
        cmdWrite inst (encodeCmd (byteOrderInstr false w e))] := rfl

/-- The four stores are one pseudo-instruction, whose order and width choose the command. -/
theorem assemble_st (inst : Nat) (e : Order) (w : Width) (a v : Dword) :
    assemble inst [.st e w a v] =
      some [.write { inst := inst, off := 0x08, bytes := 8 } a, .write { inst := inst, off := 0x18, bytes := 8 } v,
        cmdWrite inst (encodeCmd (byteOrderInstr true w e))] := rfl

/-- Settles O54: every line of an expansion is a bus write, in the order of the lines. -/
theorem pseudoInstructionsExpand : Obligations.PseudoInstructionsExpand := by
  unfold Obligations.PseudoInstructionsExpand
  intro i a n v k d W
  exact ⟨rfl, rfl, rfl, assemble_ld i .little .w32 a, assemble_ld i .big .w32 a, assemble_ld i .little .w64 a,
    assemble_ld i .big .w64 a, assemble_st i .little .w32 a v, assemble_st i .big .w32 a v,
    assemble_st i .little .w64 a v, assemble_st i .big .w64 a v, rfl, rfl⟩

end Sys2Proof.Machine
end

section
/-! PROOF. The byte-assembly functions (40_byteorder.md R80 to R84): each value is the number whose base 2^8 digits are
its bytes, the least significant first. -/

namespace Sys2Proof.Machine

/-! ### Digits and bytes -/

/-- The value of a byte sequence, least significant byte first, of any length. -/
def littleValue (s : List Byte) : Nat := Nat.ofDigits (2 ^ 8) (s.map BitVec.toNat)

/-- The n low bytes of a value, least significant first. -/
def lowBytes {w : Nat} (n : Nat) (v : BitVec w) : List Byte := (List.range n).map fun k => v.extractLsb' (8 * k) 8

theorem littleValue_cons (b : Byte) (s : List Byte) : littleValue (b :: s) = b.toNat + 2 ^ 8 * littleValue s :=
  Nat.ofDigits_cons

theorem littleValue_append (s t : List Byte) :
    littleValue (s ++ t) = littleValue s + 2 ^ (8 * s.length) * littleValue t := by
  simp [littleValue, Nat.ofDigits_append, Nat.pow_mul]

theorem littleValue_singleton (b : Byte) : littleValue [b] = b.toNat := Nat.ofDigits_singleton

theorem littleValue_lt (s : List Byte) : littleValue s < 2 ^ (8 * s.length) := by
  have hbytes : ∀ x ∈ s.map BitVec.toNat, x < 2 ^ 8 := by
    simp only [List.mem_map]
    rintro _ ⟨b, -, rfl⟩
    exact b.isLt
  simpa [littleValue, Nat.pow_mul] using Nat.ofDigits_lt_base_pow_length (by decide) hbytes

/-- Byte k of the value is the sequence's byte k. -/
theorem ofNat_littleValue_div (s : List Byte) {k : Nat} (hk : k < s.length) :
    BitVec.ofNat 8 (littleValue s / 2 ^ (8 * k)) = s[k] := by
  induction s generalizing k with
  | nil => simp at hk
  | cons b s ih =>
    have hb := b.isLt
    rw [littleValue_cons]
    cases k with
    | zero =>
      refine BitVec.eq_of_toNat_eq ?_
      simpa using hb
    | succ k =>
      have htail : (b.toNat + 2 ^ 8 * littleValue s) / 2 ^ 8 = littleValue s := by omega
      rw [Nat.mul_succ, Nat.add_comm (8 * k), Nat.pow_add, ← Nat.div_div_eq_div_mul, htail]
      exact ih (by simpa using hk)

@[simp] theorem lowBytes_length {w : Nat} (n : Nat) (v : BitVec w) : (lowBytes n v).length = n := by simp [lowBytes]

theorem lowBytes_getElem {w : Nat} (n : Nat) (v : BitVec w) {k : Nat} (hk : k < (lowBytes n v).length) :
    (lowBytes n v)[k] = BitVec.ofNat 8 (v.toNat / 2 ^ (8 * k)) := by
  simp [lowBytes, BitVec.extractLsb', Nat.shiftRight_eq_div_pow]

/-- A value's bytes make up the value again. -/
theorem littleValue_lowBytes {w : Nat} (n : Nat) (v : BitVec w) :
    littleValue (lowBytes n v) = v.toNat % 2 ^ (8 * n) := by
  induction n with
  | zero => simp [Nat.mod_one, lowBytes, littleValue]
  | succ n ih =>
    have hlast : lowBytes (n + 1) v = lowBytes n v ++ [v.extractLsb' (8 * n) 8] := by simp [lowBytes, List.range_succ]
    rw [hlast, littleValue_append, ih, littleValue_singleton, lowBytes_length, BitVec.extractLsb'_toNat,
      Nat.shiftRight_eq_div_pow, Nat.pow_mul, Nat.pow_mul, ← Nat.mod_pow_succ]

/-- A sequence's value has the sequence's bytes. -/
theorem lowBytes_littleValue {w : Nat} {s : List Byte} (hs : 8 * s.length ≤ w) :
    lowBytes s.length (BitVec.ofNat w (littleValue s)) = s := by
  refine List.ext_getElem (by simp) fun k h1 h2 => ?_
  have hlt : littleValue s < 2 ^ w := (littleValue_lt s).trans_le (Nat.pow_le_pow_right (by decide) hs)
  rw [lowBytes_getElem, BitVec.toNat_ofNat, Nat.mod_eq_of_lt hlt, ofNat_littleValue_div s h2]

/-! ### Sums -/

/-- The sum of byte k times 2^(8k) (40_byteorder.md R81). -/
theorem sum_little (f : Nat → Byte) (n : Nat) :
    ((List.range n).map fun k => (f k).toNat * 2 ^ (8 * k)).sum = littleValue ((List.range n).map f) := by
  induction n with
  | zero => rfl
  | succ n ih =>
    rw [List.range_succ, List.map_append, List.map_append, List.sum_append, ih, littleValue_append]
    simp [littleValue_singleton, Nat.mul_comm]

/-- The sum of byte k times 2^(8(n-1-k)) (40_byteorder.md R81). -/
theorem sum_big (f : Nat → Byte) (n : Nat) :
    ((List.range n).map fun k => (f k).toNat * 2 ^ (8 * (n - 1 - k))).sum =
      littleValue ((List.range n).map f).reverse := by
  induction n generalizing f with
  | zero => rfl
  | succ n ih =>
    have hplace (k : Nat) : n + 1 - 1 - (k + 1) = n - 1 - k := by omega
    have hrest := ih fun k => f (k + 1)
    simp only [List.range_succ_eq_map, List.map_cons, List.map_map, List.sum_cons, Function.comp_def,
      Nat.succ_eq_add_one, hplace, hrest, List.reverse_cons, littleValue_append, littleValue_singleton,
      List.length_reverse, List.length_map, List.length_range]
    simp [Nat.mul_comm, Nat.add_comm]

/-! ### The functions of the spec -/

theorem le32bytes_eq (v : Word) : le32bytes v = lowBytes 4 v := rfl

theorem be32bytes_eq (v : Word) : be32bytes v = (lowBytes 4 v).reverse := rfl

theorem le64bytes_eq (v : Dword) : le64bytes v = lowBytes 8 v := rfl

theorem be64bytes_eq (v : Dword) : be64bytes v = (lowBytes 8 v).reverse := rfl

section Values
variable {s : List Byte}

/-- Four bytes are those of their value, which `le32` reads back from them. -/
theorem le32_eq (hs : s.length = 4) : le32 s = BitVec.ofNat 32 (littleValue s) := by
  have hbytes : le32bytes (BitVec.ofNat 32 (littleValue s)) = s := by
    rw [le32bytes_eq, ← hs, lowBytes_littleValue (by omega)]
  calc le32 s = le32 (le32bytes (BitVec.ofNat 32 (littleValue s))) := by rw [hbytes]
    _ = BitVec.ofNat 32 (littleValue s) := le32_le32bytes _

theorem or_reverse (a b c d : Word) : a ||| b ||| c ||| d = d ||| c ||| b ||| a := by ac_rfl

theorem be32_eq_le32_reverse (hs : s.length = 4) : be32 s = le32 s.reverse :=
  match s, hs with
  | [_, _, _, _], _ => or_reverse _ _ _ _

theorem map_getD_range (s : List Byte) : (List.range s.length).map (fun k => s.getD k 0) = s := by
  refine List.ext_getElem (by simp) fun k _ hk => ?_
  simp [hk]

theorem le64_eq (hs : s.length = 8) : le64 s = BitVec.ofNat 64 (littleValue s) := by
  have hsum := sum_little (fun k => s.getD k 0) s.length
  rw [map_getD_range, hs] at hsum
  exact congrArg (BitVec.ofNat 64) hsum

theorem be64_eq (hs : s.length = 8) : be64 s = BitVec.ofNat 64 (littleValue s.reverse) := by
  have hsum := sum_big (fun k => s.getD k 0) s.length
  rw [map_getD_range, hs] at hsum
  exact congrArg (BitVec.ofNat 64) hsum

theorem be64_eq_le64_reverse (hs : s.length = 8) : be64 s = le64 s.reverse := by
  rw [be64_eq hs, le64_eq (by simpa using hs)]

theorem le32bytes_le32 (hs : s.length = 4) : le32bytes (le32 s) = s := by
  rw [le32_eq hs, le32bytes_eq, ← hs, lowBytes_littleValue (by omega)]

theorem le64bytes_le64 (hs : s.length = 8) : le64bytes (le64 s) = s := by
  rw [le64_eq hs, le64bytes_eq, ← hs, lowBytes_littleValue (by omega)]

theorem be32bytes_be32 (hs : s.length = 4) : be32bytes (be32 s) = s := by
  rw [be32_eq_le32_reverse hs, be32bytes_eq, ← le32bytes_eq, le32bytes_le32 (s.length_reverse.trans hs),
    List.reverse_reverse]

theorem be64bytes_be64 (hs : s.length = 8) : be64bytes (be64 s) = s := by
  rw [be64_eq_le64_reverse hs, be64bytes_eq, ← le64bytes_eq, le64bytes_le64 (s.length_reverse.trans hs),
    List.reverse_reverse]

end Values

theorem be32_be32bytes (v : Word) : be32 (be32bytes v) = v := by
  rw [be32_eq_le32_reverse (be32bytes_length v), be32bytes_eq, List.reverse_reverse, ← le32bytes_eq, le32_le32bytes]

theorem le64_le64bytes (v : Dword) : le64 (le64bytes v) = v := by
  rw [le64_eq (le64bytes_length v), le64bytes_eq, littleValue_lowBytes, Nat.mod_eq_of_lt v.isLt]
  simp

theorem be64_be64bytes (v : Dword) : be64 (be64bytes v) = v := by
  rw [be64_eq_le64_reverse (be64bytes_length v), be64bytes_eq, List.reverse_reverse, ← le64bytes_eq, le64_le64bytes]

/-- Settles O24: the little-endian laws, and through the reverse the big-endian ones. -/
theorem byteAssemblyRoundTrips : Obligations.ByteAssemblyRoundTrips := by
  unfold Obligations.ByteAssemblyRoundTrips
  exact ⟨fun v => ⟨le32_le32bytes v, be32_be32bytes v⟩, fun v => ⟨le64_le64bytes v, be64_be64bytes v⟩,
    fun _ hs => ⟨le32bytes_le32 hs, be32bytes_be32 hs, be32_eq_le32_reverse hs⟩,
    fun _ hs => ⟨le64bytes_le64 hs, be64bytes_be64 hs, be64_eq_le64_reverse hs⟩⟩

end Sys2Proof.Machine
end

section
/-! PROOF. The loads and stores of 40_byteorder.md (R86 to R93): one rule for every width and byte order. -/

namespace Sys2Proof

/-- The number of bytes of a width (30_encoding.md R67). -/
def Width.bytes : Width → Nat
  | .w32 => 4
  | .w64 => 8

theorem Width.bytes_eq (w : Width) : w.bytes = if w = .w64 then 8 else 4 := by cases w <;> rfl

theorem Width.bytes_pos (w : Width) : 0 < w.bytes := by cases w <;> decide

/-- The sequence with its least significant byte first. -/
def Order.leastFirst (o : Order) (s : List Byte) : List Byte :=
  match o with
  | .little => s
  | .big => s.reverse

/-- The lowest bit of byte k, of n bytes, in their value. -/
def Order.place (o : Order) (n k : Nat) : Nat :=
  match o with
  | .little => 8 * k
  | .big => 8 * (n - 1 - k)

@[simp] theorem Order.leastFirst_length (o : Order) (s : List Byte) : (o.leastFirst s).length = s.length := by
  cases o <;> simp [Order.leastFirst]

@[simp] theorem Order.leastFirst_leastFirst (o : Order) (s : List Byte) : o.leastFirst (o.leastFirst s) = s := by
  cases o <;> simp [Order.leastFirst]

namespace Machine

/-! ### Values and bytes of either order -/

/-- The sum of the bytes at their places. -/
theorem sum_place (o : Order) (f : Nat → Byte) (n : Nat) :
    ((List.range n).map fun k => (f k).toNat * 2 ^ o.place n k).sum =
      littleValue (o.leastFirst ((List.range n).map f)) := by
  cases o with
  | little => exact sum_little f n
  | big => exact sum_big f n

/-- Byte k of a value's bytes is at its place in the value. -/
theorem leastFirst_lowBytes_getElem {w : Nat} (o : Order) (n : Nat) (v : BitVec w) {k : Nat}
    (hk : k < (o.leastFirst (lowBytes n v)).length) :
    (o.leastFirst (lowBytes n v))[k] = BitVec.ofNat 8 (v.toNat / 2 ^ o.place n k) := by
  cases o with
  | little => exact lowBytes_getElem n v _
  | big =>
    refine (List.getElem_reverse hk).trans ((lowBytes_getElem n v _).trans ?_)
    rw [lowBytes_length, Order.place]

/-! ### The commands by width and order -/

/-- What the load of a width and order makes of the bytes it reads. -/
def loadValue (w : Width) (o : Order) (s : List Byte) : Dword :=
  match w, o with
  | .w32, .little => (le32 s).setWidth 64
  | .w32, .big => (be32 s).setWidth 64
  | .w64, .little => le64 s
  | .w64, .big => be64 s

/-- What the store of a width and order writes of VAL. -/
def storeBytes (w : Width) (o : Order) (v : Dword) : List Byte :=
  match w, o with
  | .w32, .little => le32bytes (v.extractLsb' 0 32)
  | .w32, .big => be32bytes (v.extractLsb' 0 32)
  | .w64, .little => le64bytes v
  | .w64, .big => be64bytes v

theorem exec_load (w : Width) (o : Order) (s : State) :
    exec (byteOrderInstr false w o) s = loadCommand w.bytes (loadValue w o) s := by
  cases w <;> cases o <;> rfl

theorem exec_store (w : Width) (o : Order) (s : State) :
    exec (byteOrderInstr true w o) s = storeCommand (fun e => storeBytes w o e.val) s := by
  cases w <;> cases o <;> rfl

theorem setWidth_le32 {s : List Byte} (hs : s.length = 4) : (le32 s).setWidth 64 = BitVec.ofNat 64 (littleValue s) := by
  have hlt : littleValue s < 2 ^ 32 := by simpa [hs] using littleValue_lt s
  rw [le32_eq hs]
  refine BitVec.eq_of_toNat_eq ?_
  rw [BitVec.toNat_setWidth, BitVec.toNat_ofNat, BitVec.toNat_ofNat, Nat.mod_eq_of_lt hlt]

theorem loadValue_eq (w : Width) (o : Order) {s : List Byte} (hs : s.length = w.bytes) :
    loadValue w o s = BitVec.ofNat 64 (littleValue (o.leastFirst s)) := by
  cases w with
  | w32 =>
    cases o with
    | little => exact setWidth_le32 hs
    | big =>
      rw [loadValue, be32_eq_le32_reverse hs]
      exact setWidth_le32 (s.length_reverse.trans hs)
  | w64 =>
    cases o with
    | little => exact le64_eq hs
    | big => exact be64_eq hs

/-- The bytes of the low half are the low bytes of the whole (30_encoding.md R69). -/
theorem lowBytes_valLow (v : Dword) : lowBytes 4 (v.extractLsb' 0 32) = lowBytes 4 v := by
  have htake : lowBytes 4 v = (le64bytes v).take 4 := rfl
  rw [htake, le64bytes_halves]
  rfl

theorem storeBytes_eq (w : Width) (o : Order) (v : Dword) : storeBytes w o v = o.leastFirst (lowBytes w.bytes v) := by
  cases w with
  | w32 =>
    rw [Width.bytes, ← lowBytes_valLow]
    cases o <;> rfl
  | w64 => cases o <;> rfl

@[simp] theorem storeBytes_length (w : Width) (o : Order) (v : Dword) : (storeBytes w o v).length = w.bytes := by
  simp [storeBytes_eq]

/-- A load of the bytes a store of its width and order wrote gives the low bits of the value (40_byteorder.md R84). -/
theorem loadValue_storeBytes (w : Width) (o : Order) (v : Dword) :
    (loadValue w o (storeBytes w o v)).toNat = v.toNat % 2 ^ (8 * w.bytes) := by
  have hlt : v.toNat % 2 ^ (8 * w.bytes) < 2 ^ 64 := (Nat.mod_le _ _).trans_lt v.isLt
  rw [loadValue_eq w o (storeBytes_length w o v), storeBytes_eq, Order.leastFirst_leastFirst, littleValue_lowBytes,
    BitVec.toNat_ofNat, Nat.mod_eq_of_lt hlt]

/-! ### The rules -/

theorem not_inRange {memSize addr n : Nat} (hn : 0 < n) (hbeyond : memSize < addr + n) :
    ¬ inRange memSize addr n = true := by
  rw [inRange_iff]
  omega

/-- The load of any width and order (40_byteorder.md R86 to R89). -/
theorem loadRule (w : Width) (o : Order) :
    LoadRule (byteOrderInstr false w o) (encodeCmd (byteOrderInstr false w o)) w.bytes (o.place w.bytes) := by
  refine ⟨decode_encodeCmd _, fun s e hrun => ?_⟩
  intro value
  have hvalue : loadValue w o (s.mem.read e.addr.toNat w.bytes) = BitVec.ofNat 64 value := by
    rw [loadValue_eq w o (read_length ..)]
    exact congrArg _ (sum_place o (fun k => s.mem.readByte (e.addr.toNat + k)) w.bytes).symm
  rw [exec_load, loadCommand_running _ _ hrun, ← hvalue]
  exact ⟨fun hfit => if_pos (inRange_iff.mpr (.inr hfit)), fun hbeyond => if_neg (not_inRange w.bytes_pos hbeyond)⟩

/-- The store of any width and order (40_byteorder.md R90 to R93). -/
theorem storeRule (w : Width) (o : Order) :
    StoreRule (byteOrderInstr true w o) (encodeCmd (byteOrderInstr true w o)) w.bytes (o.place w.bytes) := by
  refine ⟨decode_encodeCmd _, fun s e hrun hwf => ?_⟩
  have hlen := storeBytes_length w o e.val
  have hinside (k : Nat) (hk : k < w.bytes) :
      (s.mem.write e.addr.toNat (storeBytes w o e.val)).readByte (e.addr.toNat + k) =
        BitVec.ofNat 8 (e.val.toNat / 2 ^ o.place w.bytes k) := by
    rw [readByte_write_inside hwf _ _ (by rwa [hlen])]
    simp only [storeBytes_eq]
    exact leastFirst_lowBytes_getElem o w.bytes e.val _
  rw [exec_store, storeCommand_running _ hrun, hlen]
  exact ⟨fun hfit => ⟨_, if_pos (inRange_iff.mpr (.inr hfit)), hinside,
      fun a ha => readByte_write_outside _ _ _ (by rwa [hlen])⟩,
    fun hbeyond => if_neg (not_inRange w.bytes_pos hbeyond)⟩

/-- Settles O18, by the rule of every load. -/
theorem littleEndianLoads : Obligations.LittleEndianLoads := by
  unfold Obligations.LittleEndianLoads
  exact ⟨loadRule .w32 .little, loadRule .w64 .little⟩

/-- Settles O19, by the rule of every load. -/
theorem bigEndianLoads : Obligations.BigEndianLoads := by
  unfold Obligations.BigEndianLoads
  exact ⟨loadRule .w32 .big, loadRule .w64 .big⟩

/-- Settles O20, by the rule of every store. -/
theorem littleEndianStores : Obligations.LittleEndianStores := by
  unfold Obligations.LittleEndianStores
  exact ⟨storeRule .w32 .little, storeRule .w64 .little⟩

/-- Settles O21, by the rule of every store. -/
theorem bigEndianStores : Obligations.BigEndianStores := by
  unfold Obligations.BigEndianStores
  exact ⟨storeRule .w32 .big, storeRule .w64 .big⟩

/-- Settles O22: the load reads the bytes the store wrote, and they are VAL's low bytes. -/
theorem storeThenLoadReturnsValue : Obligations.StoreThenLoadReturnsValue := by
  unfold Obligations.StoreThenLoadReturnsValue
  intro s e w o hrun hwf hfit
  rw [← w.bytes_eq] at hfit
  have hin : inRange s.cfg.memSize e.addr.toNat w.bytes = true := inRange_iff.mpr (.inr hfit)
  have hlen := storeBytes_length w o e.val
  set t := s.storeAtAddr e (storeBytes w o e.val)
  have hstore : exec (byteOrderInstr true w o) s = .next t := by
    rw [exec_store, storeCommand_running _ hrun, hlen, if_pos hin]
  have hread : t.mem.read e.addr.toNat w.bytes = storeBytes w o e.val := hlen ▸ read_write_same hwf _ _
  have hrun' : t.Running e := hrun
  refine ⟨t, _, _, hstore, (exec_load w o t).trans ((loadCommand_running _ _ hrun').trans (if_pos hin)),
    withEngine_selected hrun'.1, ?_⟩
  rw [hread, loadValue_storeBytes]
  cases w with
  | w32 => rfl
  | w64 => exact Nat.mod_eq_of_lt e.val.isLt

end Machine
end Sys2Proof
end

section
/-! PROOF. MISALIGNED and its test for a power of two (40_byteorder.md R94, R95). -/

namespace Sys2Proof.Machine

theorem isPow2_eq_true (k : Dword) : isPow2 k = true ↔ k ≠ 0 ∧ k &&& (k - 1) = 0 := by simp [isPow2]

/-- The mask k - 1 does not wrap unless k is 0. -/
theorem toNat_and_sub_one (a : Dword) {k : Dword} (hk : k ≠ 0) :
    (a &&& (k - 1)).toNat = a.toNat &&& (k.toNat - 1) := by
  have hle : 1 ≤ k := Nat.pos_of_ne_zero fun h => hk (BitVec.eq_of_toNat_eq h)
  rw [BitVec.toNat_and, BitVec.toNat_sub_of_le hle]
  rfl

/-- `IsPow2` in numbers (40_byteorder.md R95). -/
theorem isPow2_iff_two_pow (k : Dword) : isPow2 k = true ↔ ∃ j, j < 64 ∧ k.toNat = 2 ^ j := by
  have hbits : isPow2 k = true ↔ k.toNat ≠ 0 ∧ k.toNat &&& (k.toNat - 1) = 0 := by
    have hne : k ≠ 0 ↔ k.toNat ≠ 0 := BitVec.toNat_ne
    rw [isPow2_eq_true, ← hne]
    refine and_congr_right fun hk => ?_
    rw [← toNat_and_sub_one k hk]
    exact BitVec.toNat_eq
  rw [hbits, Nat.ne_zero_and_sub_one_eq_zero_iff_isPowerOfTwo]
  constructor
  · rintro ⟨j, hj⟩
    have hlt : 2 ^ j < 2 ^ 64 := hj ▸ k.isLt
    exact ⟨j, (Nat.pow_lt_pow_iff_right (by decide)).mp hlt, hj⟩
  · rintro ⟨j, -, hj⟩
    exact ⟨j, hj⟩

/-- Settles O25: the bit test on the value is the library's on its number. -/
theorem powerOfTwoTest : Obligations.PowerOfTwoTest := by
  unfold Obligations.PowerOfTwoTest
  exact fun k => ⟨isPow2_iff_two_pow k, isPow2_eq_true k⟩

/-- The mask of a power of two keeps the remainder, so that it is 0 exactly at the multiples. -/
theorem and_sub_one_eq_zero_iff (a : Dword) {k : Dword} (hk : isPow2 k = true) :
    a &&& (k - 1) = 0 ↔ a.toNat % k.toNat = 0 := by
  obtain ⟨hne, -⟩ := (isPow2_eq_true k).mp hk
  obtain ⟨j, -, hj⟩ := (isPow2_iff_two_pow k).mp hk
  have hmask : (a &&& (k - 1)).toNat = a.toNat % k.toNat := by
    rw [toNat_and_sub_one a hne, hj, Nat.and_two_pow_sub_one_eq_mod]
  rw [← hmask]
  exact BitVec.toNat_eq

/-- Settles O26: with a power of two the mask gives the remainder; with any other LEN `IsPow2` fails. -/
theorem misalignedAnswersMultiple : Obligations.MisalignedAnswersMultiple := by
  unfold Obligations.MisalignedAnswersMultiple
  refine ⟨decode_encodeCmd .misaligned, fun s e hrun => ?_⟩
  intro answered
  rw [← isPow2_iff_two_pow]
  have hexec : exec .misaligned s = _ := execMisaligned_running hrun
  refine ⟨fun hpow => ?_, fun hpow => hexec.trans (if_neg hpow)⟩
  have hanswer : answered = { e with result := if e.addr &&& (e.len - 1) ≠ 0 then 1 else 0 } := by
    simp only [answered, ← and_sub_one_eq_zero_iff e.addr hpow, ite_not]
  rw [hexec, if_pos hpow, hanswer]
  rfl

end Sys2Proof.Machine
end

section
/-! PROOF. The round functions bit by bit (41_compression.md R100 to R102, R111), the word orders (R104), and the
rotating form of Compress (R110). -/

namespace Sys2Proof.Machine

/-! ### The round functions -/

section Bits
variable (x y z : Word) (k : Nat)

/-- Bit k of `f1`; the bound is for the complement, which has no bits above the word. -/
theorem getLsbD_f1 (hk : k < 32) :
    (f1 x y z).getLsbD k = if x.getLsbD k then y.getLsbD k else z.getLsbD k := by
  simp only [f1, BitVec.getLsbD_or, BitVec.getLsbD_and, BitVec.getLsbD_not, hk]
  cases x.getLsbD k <;> simp

theorem getLsbD_f2 :
    (f2 x y z).getLsbD k = decide (2 ≤ (x.getLsbD k).toNat + (y.getLsbD k).toNat + (z.getLsbD k).toNat) := by
  simp only [f2, BitVec.getLsbD_or, BitVec.getLsbD_and]
  cases x.getLsbD k <;> cases y.getLsbD k <;> cases z.getLsbD k <;> rfl

theorem getLsbD_f3 :
    (f3 x y z).getLsbD k = decide (((x.getLsbD k).toNat + (y.getLsbD k).toNat + (z.getLsbD k).toNat) % 2 = 1) := by
  simp only [f3, BitVec.getLsbD_xor]
  cases x.getLsbD k <;> cases y.getLsbD k <;> cases z.getLsbD k <;> rfl

/-- Where x is 0 the exclusive or leaves z; where x is 1 it takes z out again and leaves y. -/
theorem f1_eq_f1Alt : f1 x y z = f1Alt x y z := by
  refine BitVec.eq_of_getLsbD_eq fun i hi => ?_
  rw [getLsbD_f1 x y z i hi]
  simp only [f1Alt, BitVec.getLsbD_xor, BitVec.getLsbD_and]
  cases x.getLsbD i
  case false => simp
  case true => cases y.getLsbD i <;> simp

/-- The two conjunctions with z share it. -/
theorem f2_eq_f2Alt : f2 x y z = f2Alt x y z := by
  have hshare : (x &&& z) ||| (y &&& z) = z &&& (x ||| y) := by
    rw [BitVec.and_comm z, BitVec.and_or_distrib_right]
  rw [f2, f2Alt, BitVec.or_assoc, hshare]

end Bits

/-- Settles O27: each function bit by bit. -/
theorem roundFunctionsBitwise : Obligations.RoundFunctionsBitwise := by
  unfold Obligations.RoundFunctionsBitwise
  exact fun x y z k hk => ⟨getLsbD_f1 x y z k hk, getLsbD_f2 x y z k, getLsbD_f3 x y z k⟩

/-- Settles O28: the model's alternative forms are those of R111. -/
theorem roundFunctionIdentities : Obligations.RoundFunctionIdentities := by
  unfold Obligations.RoundFunctionIdentities
  exact fun x y z => ⟨f1_eq_f1Alt x y z, f2_eq_f2Alt x y z⟩

/-! ### The word orders -/

/-- Each row of R104 is a permutation of 0..15. -/
theorem Round.order_perm (r : Round) : r.order.Perm (List.range 16) := by cases r <;> decide

theorem Round.length_order (r : Round) : r.order.length = 16 := by simpa using r.order_perm.length_eq

theorem Round.nodup_order (r : Round) : r.order.Nodup := r.order_perm.nodup_iff.mpr List.nodup_range

/-- A step of a round is an index of its row, so the default of the lookup is never read. -/
theorem Round.wordIndex_eq_getElem (r : Round) {i : Nat} (hi : i < r.order.length) : r.wordIndex i = r.order[i] :=
  List.getD_eq_getElem _ _ hi

/-- A permutation lists every word, and lists it once (41_compression.md R104). -/
theorem Round.wordIndex_existsUnique (r : Round) {k : Nat} (hk : k < 16) :
    ∃ i, i < 16 ∧ r.wordIndex i = k ∧ ∀ j, j < 16 → r.wordIndex j = k → j = i := by
  have hmem : k ∈ r.order := r.order_perm.mem_iff.mpr (List.mem_range.mpr hk)
  obtain ⟨i, hi, hik⟩ := List.getElem_of_mem hmem
  refine ⟨i, r.length_order ▸ hi, (r.wordIndex_eq_getElem hi).trans hik, fun j hj hjk => ?_⟩
  rw [← r.length_order] at hj
  rw [r.wordIndex_eq_getElem hj, ← hik] at hjk
  exact r.nodup_order.getElem_inj_iff.mp hjk

theorem wordIndex_closedForms : ∀ i < 16,
    Round.r1.wordIndex i = i ∧ Round.r2.wordIndex i = 4 * (i % 4) + i / 4 ∧
      Round.r3.wordIndex i = 8 * (i % 2) + 4 * (i / 2 % 2) + 2 * (i / 4 % 2) + i / 8 := by decide

/-- Settles O30: the closed forms at the 16 entries of each row, and that a row is a permutation. -/
theorem wordOrderClosedForms : Obligations.WordOrderClosedForms := by
  unfold Obligations.WordOrderClosedForms
  exact ⟨wordIndex_closedForms, fun r k hk => r.wordIndex_existsUnique hk⟩

/-! ### The rotating form -/

/-- The four registers one place on: how the tuple of 41_compression.md R110 moves past the names of R105 in a step. -/
def Chain.turn (w : Chain) : Chain where
  a := w.d
  b := w.a
  c := w.b
  d := w.c

/-- Four turns bring every register back to its name, so i turns are `i % 4` turns. -/
theorem turn_iterate_mod (w : Chain) (i : Nat) : Chain.turn^[i % 4] w = Chain.turn^[i] w :=
  Function.IsPeriodicPt.iterate_mod_apply (show Function.IsPeriodicPt Chain.turn 4 w from rfl) i

/-- One step of the two forms: the tuple, seen through its turns, is the named registers (41_compression.md R105, R106,
R110). -/
theorem rotatingStep_turn (r : Round) (xs : List Word) (w : Chain) (i : Nat) :
    rotatingStep r xs (Chain.turn^[i] w) i = Chain.turn^[i + 1] (mixStep r xs w i) := by
  rw [Function.iterate_succ_apply', ← turn_iterate_mod, ← turn_iterate_mod _ i, mixStep]
  have hlt : i % 4 < 4 := Nat.mod_lt _ (by decide)
  generalize i % 4 = active at hlt ⊢
  match active, hlt with
  | 0, _ | 1, _ | 2, _ | 3, _ => rfl

/-- After n steps the tuple has turned n times. -/
theorem foldl_rotatingStep (r : Round) (xs : List Word) (w : Chain) (n : Nat) :
    (List.range n).foldl (rotatingStep r xs) w = Chain.turn^[n] ((List.range n).foldl (mixStep r xs) w) := by
  induction n with
  | zero => rfl
  | succ n ih => simp only [List.range_succ, List.foldl_append, List.foldl_cons, List.foldl_nil, ih, rotatingStep_turn]

/-- A round has 16 steps, so its tuple ends unturned. -/
theorem foldl_rotatingStep_round (r : Round) (xs : List Word) (w : Chain) :
    (List.range 16).foldl (rotatingStep r xs) w = mixRound r xs w :=
  (foldl_rotatingStep r xs w 16).trans (turn_iterate_mod _ 16).symm

/-- Settles O31: the two forms agree round by round. -/
theorem rotatingFormIsCompress : Obligations.RotatingFormIsCompress := by
  unfold Obligations.RotatingFormIsCompress
  intro h block
  simp only [compressRotating, compress, foldl_rotatingStep_round]

end Sys2Proof.Machine
end

section
/-! PROOF. The COMPRESS command (41_compression.md R114). -/

namespace Sys2Proof.Machine

/-- The block of the rule's example, mixed into IV: the digest words of the empty message (95_test_vectors.md V-C1). -/
theorem compress_iv_emptyMessage :
    compress iv (0x80 :: List.replicate 63 0x00) = ⟨0xE0CFD631, 0x31E96AD1, 0xD7593CB7, 0xC089C0E0⟩ := by
  decide +kernel

/-- Settles O32: the phase check, then the range check, then the effect (`execCompress_running`). -/
theorem compressCommandMixesBlock : Obligations.CompressCommandMixesBlock := by
  unfold Obligations.CompressCommandMixesBlock
  refine ⟨decode_encodeCmd .compress, compress_iv_emptyMessage, fun s e hrun => ?_⟩
  have hexec : exec .compress s = _ := execCompress_running hrun
  refine ⟨fun hphase => ?_, fun hphase => hexec.trans (if_neg ((not_isActive_iff _).mpr hphase))⟩
  rw [if_pos ((isActive_iff _).mpr hphase)] at hexec
  exact ⟨fun hfit => hexec.trans (if_pos (inRange_iff.mpr (.inr hfit))),
    fun hbeyond => hexec.trans (if_neg (not_inRange (by decide) hbeyond))⟩

end Sys2Proof.Machine
end

section
/-! PROOF. Absorb as one function of the bytes absorbed (42_stream.md R128): the complete blocks go into H and the rest into
BUF, whatever the chunks (R130). -/

namespace Sys2Proof.Machine

/-! ### Complete blocks and the rest -/

/-- H after every complete block of the data. -/
def Chain.mixAll (h : Chain) (data : List Byte) : Chain := compressBlocks (data.length / 64) h data

/-- The bytes after the last complete block. -/
def leftover (data : List Byte) : List Byte := data.drop (64 * (data.length / 64))

/-- The complete blocks of two sequences end to end: those of the first, then those its leftover makes with the second. -/
theorem blocks_append (s t : List Byte) :
    (s ++ t).length / 64 = s.length / 64 + (leftover s ++ t).length / 64 := by
  simp only [leftover, List.length_append, List.length_drop]
  omega

theorem drop_blocks_append (s t : List Byte) : (s ++ t).drop (64 * (s.length / 64)) = leftover s ++ t :=
  List.drop_append_of_le_length (by omega)

theorem leftover_append (s t : List Byte) : leftover (s ++ t) = leftover (leftover s ++ t) := by
  rw [leftover, blocks_append, Nat.mul_add, ← List.drop_drop, drop_blocks_append, ← leftover]

theorem Chain.mixAll_append (h : Chain) (s t : List Byte) :
    h.mixAll (s ++ t) = (h.mixAll s).mixAll (leftover s ++ t) := by
  rw [mixAll, blocks_append, compressBlocks_add, drop_blocks_append, compressBlocks_append h t (by omega), ← mixAll,
    ← mixAll]

/-! ### Absorb -/

theorem index_lt (e : Engine) : e.index < 64 := Nat.mod_lt _ (by decide)

theorem absorb_h (e : Engine) (data : List Byte) : (e.absorb data).h = e.h.mixAll (e.buffered ++ data) :=
  (absorb_spec e data).1

theorem absorb_buffered (e : Engine) (data : List Byte) : (e.absorb data).buffered = leftover (e.buffered ++ data) :=
  (absorb_spec e data).2

/-- Absorbing no bytes changes nothing, the bytes of BUF without meaning included. -/
@[simp] theorem absorb_nil (e : Engine) : e.absorb [] = e := by
  have hindex := index_lt e
  have hpath : ¬ (e.index ≠ 0 ∧ 64 - e.index ≤ ([] : List Byte).length) := by
    rw [List.length_nil]
    omega
  unfold Engine.absorb
  rw [if_neg hpath]
  simp [Engine.absorbFrom, compressBlocks]

/-- Settles O40: what the first chunk leaves over stands before the second, as it does in the whole. -/
theorem chunkIndependence : Obligations.ChunkIndependence := by
  unfold Obligations.ChunkIndependence
  intro e s t
  refine ⟨?_, ?_, ?_⟩
  · rw [absorb_h, absorb_h, absorb_h, absorb_buffered, ← Chain.mixAll_append, List.append_assoc]
  · rw [absorb_count, absorb_count, absorb_count, List.length_append, BitVec.ofNat_add, BitVec.add_assoc]
  · rw [absorb_buffered, absorb_buffered, absorb_buffered, ← leftover_append, List.append_assoc]

end Sys2Proof.Machine
end

section
/-! PROOF. Padding, the length suffix and the end of a message (42_stream.md R131 to R134, R138), and the digest (R133,
R140). -/

namespace Sys2Proof.Machine

/-! ### The pad -/

/-- 1 <= padlen <= 64, and the pad ends 8 bytes before the end of a block (42_stream.md R131). -/
theorem padLen_bounds {index : Nat} (h : index < 64) :
    1 ≤ padLen index ∧ padLen index ≤ 64 ∧ (index + padLen index) % 64 = 56 := by
  unfold padLen
  split <;> omega

/-- The buffered bytes, the pad and the suffix are one block, or two where the suffix does not fit the first
(42_stream.md R134). -/
theorem padded_length {index : Nat} (h : index < 64) :
    index + (padLen index + 8) = 64 * if index < 56 then 1 else 2 := by
  unfold padLen
  split <;> omega

/-- Settles O36: the pad is that of R131 by definition, and Absorb counts its bytes (`absorb_index`). -/
theorem padReachesFiftySix : Obligations.PadReachesFiftySix := by
  unfold Obligations.PadReachesFiftySix
  intro e index padlen
  obtain ⟨hpos, hle, hmod⟩ := padLen_bounds (index_lt e)
  have hlength : (pad e.index).length = padLen e.index := pad_length (index_lt e)
  refine ⟨rfl, hpos, hle, hlength, ?_⟩
  calc (e.absorb (pad e.index)).index = (e.index + (pad e.index).length) % 64 := absorb_index e _
    _ = 56 := by rw [hlength, hmod]

/-! ### The length suffix -/

/-- A byte of a value, as a number. -/
theorem extractLsb'_byte {w : Nat} (v : BitVec w) (start : Nat) :
    v.extractLsb' start 8 = BitVec.ofNat 8 (v.toNat / 2 ^ start) := by
  rw [BitVec.extractLsb', Nat.shiftRight_eq_div_pow]

/-- COUNT << 3 is 8 times the length mod 2^64, also after COUNT has wrapped (42_stream.md R138). -/
theorem lengthSuffix_ofNat (n : Nat) : lengthSuffix (BitVec.ofNat 64 n) = le64bytes (BitVec.ofNat 64 (8 * n)) := by
  have hshift : BitVec.ofNat 64 n <<< 3 = BitVec.ofNat 64 (8 * n) := by
    refine BitVec.eq_of_toNat_eq ?_
    rw [BitVec.toNat_shiftLeft, Nat.shiftLeft_eq, BitVec.toNat_ofNat, BitVec.toNat_ofNat]
    omega
  rw [lengthSuffix, hshift]

theorem lengthSuffix_bytes (n : Nat) :
    lengthSuffix (BitVec.ofNat 64 n) = (List.range 8).map fun k => BitVec.ofNat 8 (8 * n % 2 ^ 64 / 2 ^ (8 * k)) := by
  simp only [lengthSuffix_ofNat, le64bytes, extractLsb'_byte, BitVec.toNat_ofNat]

/-- Settles O37: the bytes of 8 times the length (`lengthSuffix_bytes`), and the two halves of a 64-bit value. -/
theorem suffixIsBitLength : Obligations.SuffixIsBitLength := by
  unfold Obligations.SuffixIsBitLength
  refine ⟨fun n k hk => ?_, fun c => le64bytes_halves (c <<< 3)⟩
  rw [lengthSuffix_bytes, List.getElem?_map, List.getElem?_range hk, Option.map_some]

/-! ### The end of a message -/

theorem close_eq (e : Engine) :
    e.close = { (e.absorb (pad e.index)).absorb (lengthSuffix e.count) with phase := .final } := by
  unfold Engine.close
  rfl

/-- FINALIZE mixes the buffered bytes, the pad and the suffix as one sequence (42_stream.md R134). -/
theorem close_h (e : Engine) :
    e.close.h = e.h.mixAll (e.buffered ++ (pad e.index ++ lengthSuffix e.count)) := by
  rw [close_eq, ← absorb_h]
  exact (chunkIndependence e _ _).1

theorem close_count (e : Engine) : e.close.count = e.count + BitVec.ofNat 64 (padLen e.index + 8) := by
  rw [close_eq, absorb_count, absorb_count, pad_length (index_lt e), lengthSuffix_length, BitVec.add_assoc,
    ← BitVec.ofNat_add]

theorem close_keeps (e : Engine) :
    e.close.phase = .final ∧ e.close.addr = e.addr ∧ e.close.len = e.len ∧ e.close.val = e.val ∧
      e.close.result = e.result ∧ e.close.halted = e.halted ∧ e.close.faultCode = e.faultCode := by
  obtain ⟨h, buf, count, hframe⟩ := close_frame e
  simp [hframe]

/-! ### The digest -/

/-- Byte k of the digest: byte k mod 4, least significant first, of the word k div 4 (42_stream.md R133). -/
theorem digestBytes_getElem (h : Chain) {k : Nat} (hk : k < (digestBytes h).length) :
    (digestBytes h)[k] =
      BitVec.ofNat 8 (([h.a, h.b, h.c, h.d].getD (k / 4) 0).toNat / 2 ^ (8 * (k % 4))) := by
  have hbytes : digestBytes h =
      (List.range 16).map fun k => ([h.a, h.b, h.c, h.d].getD (k / 4) 0).extractLsb' (8 * (k % 4)) 8 := rfl
  simp only [hbytes, List.getElem_map, List.getElem_range, extractLsb'_byte]

/-- A register pair shows the bytes of its two words in order (10_state.md R36). -/
theorem le64bytes_wordPair (lo hi : Word) : le64bytes (wordPair lo hi) = le32bytes lo ++ le32bytes hi := by
  have hlo := lo.isLt
  have hhi := hi.isLt
  have hlow : (wordPair lo hi).extractLsb' 0 32 = lo := by
    refine BitVec.eq_of_toNat_eq ?_
    rw [BitVec.extractLsb'_toNat, wordPair_toNat, Nat.shiftRight_zero]
    omega
  have hhigh : (wordPair lo hi).extractLsb' 32 32 = hi := by
    refine BitVec.eq_of_toNat_eq ?_
    rw [BitVec.extractLsb'_toNat, wordPair_toNat, Nat.shiftRight_eq_div_pow]
    omega
  rw [le64bytes_halves, hlow, hhigh]

/-- H01 and H23 show the digest of H (10_state.md R36). -/
theorem readReg_chain (e : Engine) :
    le64bytes (e.readReg .h01) ++ le64bytes (e.readReg .h23) = digestBytes e.h := by
  simp only [Engine.readReg, le64bytes_wordPair, digestBytes, List.append_assoc]

/-! ### Contexts that hold a message -/

/-- The block loop of R140 is that of Absorb. -/
theorem md4_eq (m : List Byte) : md4 m = digestBytes (iv.mixAll (paddedMessage m)) := rfl

/-- `Engine.Holds` in the terms of Absorb. -/
theorem holds_iff {e : Engine} {m : List Byte} :
    e.Holds m ↔ e.h = iv.mixAll m ∧ e.buffered = leftover m ∧ e.count = BitVec.ofNat 64 m.length := Iff.rfl

/-- INIT leaves the empty message, for it counts none of BUF's bytes (42_stream.md R127). -/
theorem holds_nil_of_init (e : Engine) : { e with h := iv, count := 0, phase := .empty }.Holds [] :=
  holds_iff.mpr ⟨rfl, rfl, rfl⟩

section Holds
variable {e : Engine} {m : List Byte} (hm : e.Holds m)
include hm

theorem Engine.Holds.withPhase (p : Phase) : { e with phase := p }.Holds m := hm

/-- Absorb appends to the message (42_stream.md R130). -/
theorem Engine.Holds.absorb (data : List Byte) : (e.absorb data).Holds (m ++ data) := by
  obtain ⟨hh, hbuffered, hcount⟩ := holds_iff.mp hm
  refine holds_iff.mpr ⟨?_, ?_, ?_⟩
  · rw [absorb_h, hh, hbuffered, ← Chain.mixAll_append]
  · rw [absorb_buffered, hbuffered, ← leftover_append]
  · rw [absorb_count, hcount, List.length_append, BitVec.ofNat_add]

/-- COUNT mod 64 is the length mod 64, because 2^64 is a multiple of 64 (42_stream.md R139). -/
theorem Engine.Holds.index_eq : e.index = m.length % 64 := by
  obtain ⟨-, -, hcount⟩ := hm
  rw [Engine.index, hcount, BitVec.toNat_ofNat]
  omega

/-- FINALIZE mixes the padded message of R140 from IV. -/
theorem Engine.Holds.close_h : e.close.h = iv.mixAll (paddedMessage m) := by
  have hindex := hm.index_eq
  obtain ⟨hh, hbuffered, hcount⟩ := holds_iff.mp hm
  rw [Machine.close_h, hh, hbuffered, ← Chain.mixAll_append, hindex, hcount, lengthSuffix_ofNat,
    ← List.append_assoc, ← paddedMessage]

end Holds

end Sys2Proof.Machine
end

section
/-! PROOF. The streaming commands (42_stream.md R125 to R135): INIT, UPDATE and FINALIZE on an engine that is not halted. -/

namespace Sys2Proof.Machine

/-! ### INIT -/

/-- Settles O33: `execInit_running`, and the initial words of R126. -/
theorem initLoadsInitialValue : Obligations.InitLoadsInitialValue := by
  unfold Obligations.InitLoadsInitialValue
  exact ⟨decode_encodeCmd .init, fun s e hrun => execInit_running hrun⟩

/-! ### UPDATE -/

/-- UPDATE in an open phase and in range absorbs the LEN bytes at ADDR (42_stream.md R129). -/
theorem execUpdate_inRange {s : State} {e : Engine} (hrun : s.Running e) (hphase : e.phase = .empty ∨ e.phase = .accum)
    (hrange : e.len.toNat = 0 ∨ e.addr.toNat + e.len.toNat ≤ s.cfg.memSize) :
    exec .update s =
      .next (s.withEngine { e.absorb (s.mem.read e.addr.toNat e.len.toNat) with phase := .accum }) := by
  have hexec : exec .update s = _ := execUpdate_running hrun
  rw [hexec, if_pos ((isActive_iff _).mpr hphase), if_pos (inRange_iff.mpr hrange)]

/-- Settles O34: the blocks counted are the complete blocks of the buffered bytes and the data (`absorb_spec`). -/
theorem updateAbsorbsMemoryBytes : Obligations.UpdateAbsorbsMemoryBytes := by
  unfold Obligations.UpdateAbsorbsMemoryBytes
  intro s e hrun hphase hrange pending blocks
  obtain ⟨h, buf, hframe⟩ := absorb_frame e (s.mem.read e.addr.toNat e.len.toNat)
  obtain ⟨hh, hbuffered⟩ := absorb_spec e (s.mem.read e.addr.toNat e.len.toNat)
  have hblocks : (e.buffered ++ s.mem.read e.addr.toNat e.len.toNat).length / 64 = blocks := by
    simp [blocks, Engine.index]
  rw [hblocks] at hh hbuffered
  refine ⟨_, execUpdate_inRange hrun hphase hrange, hh, hbuffered, ?_, rfl, ?_⟩
  · simp
  · simp [hframe]

/-- Settles O35: the empty range is in range at every ADDR, and Absorb of no bytes changes nothing. -/
theorem zeroLengthUpdateOnlySetsPhase : Obligations.ZeroLengthUpdateOnlySetsPhase := by
  unfold Obligations.ZeroLengthUpdateOnlySetsPhase
  intro s e hrun hphase hlen
  have hzero : e.len.toNat = 0 := by rw [hlen]; rfl
  have hread : s.mem.read e.addr.toNat e.len.toNat = [] := by rw [hzero]; rfl
  rw [execUpdate_inRange hrun hphase (.inl hzero), hread, absorb_nil]
  rfl

/-- Settles O41: INIT counts no byte, and Absorb appends (`Engine.Holds.absorb`). -/
theorem contextRepresentsMessage : Obligations.ContextRepresentsMessage := by
  unfold Obligations.ContextRepresentsMessage
  refine ⟨fun s e hrun => ?_, fun s e m hrun hphase hrange hm => ?_⟩
  · exact ⟨_, _, execInit_running hrun, ⟨withEngine_selected hrun.1, hrun.2⟩, rfl, holds_nil_of_init e⟩
  · obtain ⟨h, buf, hframe⟩ := absorb_frame e (s.mem.read e.addr.toNat e.len.toNat)
    refine ⟨_, _, execUpdate_inRange hrun hphase hrange, ⟨withEngine_selected hrun.1, ?_⟩, rfl,
      (hm.absorb _).withPhase .accum⟩
    rw [hframe]
    exact hrun.2

/-! ### FINALIZE -/

/-- FINALIZE in an open phase and in range closes the context and stores its digest at ADDR (42_stream.md R134). -/
theorem execFinalize_inRange {s : State} {e : Engine} (hrun : s.Running e)
    (hphase : e.phase = .empty ∨ e.phase = .accum) (hrange : e.addr.toNat + 16 ≤ s.cfg.memSize) :
    exec .finalize s =
      .next { s with
        engines := s.engines.set s.sel e.close
        mem := s.mem.write e.addr.toNat (digestBytes e.close.h) } := by
  have hexec : exec .finalize s = _ := execFinalize_running hrun
  rw [hexec, if_pos ((isActive_iff _).mpr hphase), if_pos (inRange_iff.mpr (.inr hrange)), ← effect_finalize, effect]

/-- Settles O38: the padded tail is whole blocks (`padded_length`), and FINALIZE mixes it (`close_h`) and stores the
digest. -/
theorem finalizeWritesDigest : Obligations.FinalizeWritesDigest := by
  unfold Obligations.FinalizeWritesDigest
  intro s e hrun hphase hmem hrange index padlen blocks tail h
  have hindex := index_lt e
  have htail : tail = e.buffered ++ (pad e.index ++ lengthSuffix e.count) := by
    have hsuffix := lengthSuffix_bytes e.count.toNat
    rw [BitVec.ofNat_toNat, BitVec.setWidth_eq] at hsuffix
    rw [hsuffix, ← List.append_assoc]
    rfl
  have hlength : tail.length = 64 * blocks := by
    rw [htail, List.length_append, List.length_append, buffered_length, pad_length hindex, lengthSuffix_length]
    exact padded_length hindex
  have hh : e.close.h = h := by
    rw [close_h, ← htail, Chain.mixAll, hlength, Nat.mul_div_cancel_left _ (by decide)]
  obtain ⟨hfinal, haddr, hlen, hval, hresult, hhalted, hcode⟩ := close_keeps e
  refine ⟨hlength, e.close, _, execFinalize_inRange hrun hphase hrange, hh, close_count e, close_index e, hfinal, haddr,
    hlen, hval, hresult, hhalted, hcode, fun k hk => ?_, fun a ha => readByte_write_outside _ _ _ ha⟩
  have hbyte : k < (digestBytes e.close.h).length := by rwa [digestBytes_length]
  rw [readByte_write_inside hmem _ _ hbyte, digestBytes_getElem, hh]

/-- Settles O42: FINALIZE mixes the padded message from IV (`Engine.Holds.close_h`). -/
theorem finalizeWritesMD4OfMessage : Obligations.FinalizeWritesMD4OfMessage := by
  unfold Obligations.FinalizeWritesMD4OfMessage
  intro s e m hrun hphase hmem hrange hm
  have hdigest : digestBytes e.close.h = md4 m := by rw [hm.close_h, md4_eq]
  have hclosed : (s.engines.set s.sel e.close)[s.sel]? = some e.close := withEngine_selected hrun.1
  have hstored := read_write_same hmem e.addr.toNat (digestBytes e.close.h)
  rw [digestBytes_length] at hstored
  refine ⟨_, e.close, execFinalize_inRange hrun hphase hrange, hclosed, ?_, ?_⟩
  · dsimp only
    rw [hstored, hdigest]
  · rw [readReg_chain, hdigest]

/-! ### The phase table -/

/-- Where a command that raises no fault leads from a phase (42_stream.md R125). -/
def phaseAfter (p : Phase) (i : Instr) : Phase :=
  if i = .init then .empty else if i = .update then .accum else if i = .finalize then .final else p

theorem effect_phase {s : State} {e e' : Engine} (i : Instr) (he : s.engines[s.sel]? = some e)
    (he' : (effect s e i).engines[s.sel]? = some e') : e'.phase = phaseAfter e.phase i := by
  cases i with
  | init | update | compress | ldLe32 | ldBe32 | ldLe64 | ldBe64 | misaligned =>
    cases (withEngine_selected he).symm.trans he'
    rfl
  | finalize =>
    have hstored : (s.engines.set s.sel e.close)[s.sel]? = some e' := by rwa [effect_finalize] at he'
    have hclosed : e.close = e' := Option.some.inj ((withEngine_selected he).symm.trans hstored)
    rw [← hclosed]
    exact (close_keeps e).1
  | stLe32 | stBe32 | stLe64 | stBe64 =>
    cases he.symm.trans he'
    rfl

/-- INIT never faults (42_stream.md R127). -/
@[simp] theorem faultOf_init (memSize : Nat) (e : Engine) : faultOf memSize e .init = none := by
  simp [faultOf, needsOpenPhase, memBytes]

/-- The context commands fault USAGE in UNINIT and FINAL (60_exceptions.md R155). -/
theorem faultOf_usage (memSize : Nat) {e : Engine} {i : Instr} (hi : i ∈ [Instr.update, .compress, .finalize])
    (hphase : e.phase = .uninit ∨ e.phase = .final) : faultOf memSize e i = some .usage := by
  have hneeds : needsOpenPhase i = true := by
    rw [needsOpenPhase_iff]
    simpa [or_comm] using hi
  have hclosed : e.phase.isActive = false := by simpa using (not_isActive_iff _).mpr hphase
  simp [faultOf, hneeds, hclosed]

/-- Settles O39: a running command either takes its fault, which keeps PHASE and is USAGE outside EMPTY and ACCUM, or has
its effect (`effect_phase`). -/
theorem phaseTransitions : Obligations.PhaseTransitions := by
  unfold Obligations.PhaseTransitions
  intro s t e e' i hrun ht he'
  obtain ⟨f, hf, hcase⟩ := exec_next ht
  cases hrun.1.symm.trans hf
  obtain ⟨hhalted, -⟩ | ⟨-, ⟨c, hfault, rfl⟩ | ⟨hfault, rfl⟩⟩ := hcase
  · exact absurd (hhalted.symm.trans hrun.2) (by decide)
  · cases (withEngine_selected hrun.1).symm.trans he'
    refine ⟨?_, fun hi hclosed => ⟨rfl, ?_, rfl⟩, fun _ _ => ⟨fun h => (by cases h), fun _ => rfl⟩, fun _ => rfl⟩
    · rintro rfl
      cases hfault.symm.trans (faultOf_init _ e)
    · exact Option.some.inj (hfault.symm.trans (faultOf_usage _ hi hclosed))
  · have hphase := effect_phase i hrun.1 he'
    have hrunning : e'.halted = false := by
      obtain ⟨f, m, heffect, -, -, -, hhalted, -⟩ := effect_frame i hrun.1
      rw [heffect] at he'
      cases (withEngine_selected hrun.1).symm.trans he'
      rw [hhalted, hrun.2]
    rw [hphase, hrunning]
    refine ⟨?_, fun hi hclosed => ?_, fun hi _ => ⟨fun _ => ?_, fun h => by cases h⟩, fun hi => ?_⟩
    · rintro rfl
      rfl
    · cases hfault.symm.trans (faultOf_usage _ hi hclosed)
    · have hinit : i ≠ .init := by
        rintro rfl
        simp at hi
      rw [phaseAfter, if_neg hinit]
    · simp only [List.mem_cons, List.not_mem_nil, or_false, not_or] at hi
      obtain ⟨hinit, hupdate, -, hfinalize⟩ := hi
      rw [phaseAfter, if_neg hinit, if_neg hupdate, if_neg hfinalize]

end Sys2Proof.Machine
end

section
/-! PROOF. Faults (60_exceptions.md R150 to R159): which CMD writes fault, with which code, and what decides it. -/

namespace Sys2Proof.Machine

section Running
variable {s : State} {e : Engine}

/-! ### A halted engine -/

/-- A CMD write of any value to a halted engine is ignored (60_exceptions.md R153). -/
theorem issue_halted (v : Dword) (he : s.engines[s.sel]? = some e) (hh : e.halted = true) : issue v s = .next s :=
  onCommand_halted he hh

/-! ### The code a CMD write faults with -/

/-- A value that is no command faults ILLEGAL before every other check (60_exceptions.md R154). -/
theorem issue_illegal {v : Dword} {x : Illegal} (hrun : s.Running e) (hv : decode v = .error x) :
    issue v s = takesFault s e .illegal := by
  rw [issue, onCommand_running hrun, hv]
  rfl

/-- A command whose row of R158 gives a fault takes it (60_exceptions.md R152). -/
theorem exec_takesFault {i : Instr} {c : FaultCode} (hrun : s.Running e)
    (hf : faultOf s.cfg.memSize e i = some c) : exec i s = takesFault s e c := by
  rw [exec_running i hrun, hf]
  rfl

/-- The effect of a command leaves the fault state of its engine as it was. -/
theorem effect_selected (i : Instr) (he : s.engines[s.sel]? = some e) :
    ∃ f, (effect s e i).engines[s.sel]? = some f ∧ f.halted = e.halted ∧ f.faultCode = e.faultCode := by
  obtain ⟨f, m, heffect, -, -, -, hhalted, hcode⟩ := effect_frame i he
  refine ⟨f, ?_, hhalted, hcode⟩
  rw [heffect]
  exact withEngine_selected he

end Running

/-- The fault that a CMD write of `v` raises on a running engine: ILLEGAL, or that of the command (60_exceptions.md
R150). -/
def cmdFault (memSize : Nat) (e : Engine) (v : Dword) : Option FaultCode :=
  match decode v with
  | .error _ => some .illegal
  | .ok i => faultOf memSize e i

/-- The engine after a CMD write has taken that fault, or is not halted. -/
theorem issue_selected {v : Dword} {s t : State} {e f : Engine} (hrun : s.Running e) (ht : issue v s = .next t)
    (hf : t.engines[s.sel]? = some f) :
    (∃ c, cmdFault s.cfg.memSize e v = some c ∧ f = e.raise c) ∨
      cmdFault s.cfg.memSize e v = none ∧ f.halted = false := by
  have raised {c : FaultCode} (h : issue v s = takesFault s e c) : f = e.raise c := by
    cases ht.symm.trans h
    exact Option.some.inj (hf.symm.trans (withEngine_selected hrun.1))
  cases hv : decode v with
  | error x => exact .inl ⟨.illegal, by rw [cmdFault, hv], raised (issue_illegal hrun hv)⟩
  | ok i =>
    have hcmd : cmdFault s.cfg.memSize e v = faultOf s.cfg.memSize e i := by rw [cmdFault, hv]
    have hissue : issue v s = exec i s := issue_decoded hv hrun.1
    rw [hcmd]
    cases hfault : faultOf s.cfg.memSize e i with
    | some c => exact .inl ⟨c, rfl, raised (hissue.trans (exec_takesFault hrun hfault))⟩
    | none =>
      obtain ⟨f', hf', hhalted, -⟩ := effect_selected i hrun.1
      cases ht.symm.trans (hissue.trans (exec_noFault hrun hfault))
      cases hf.symm.trans hf'
      exact .inr ⟨rfl, hhalted.trans hrun.2⟩

/-- What a fault depends on in the engine: PHASE, ADDR and LEN (60_exceptions.md R150). -/
theorem cmdFault_congr {e e' : Engine} (memSize : Nat) (v : Dword) (hphase : e.phase = e'.phase)
    (haddr : e.addr = e'.addr) (hlen : e.len = e'.len) : cmdFault memSize e v = cmdFault memSize e' v := by
  have hbytes (i : Instr) : memBytes e i = memBytes e' i := by cases i <;> simp only [memBytes, hlen]
  simp only [cmdFault, faultOf, hphase, haddr, hlen, hbytes]

/-! ### The causes of each code -/

/-- The legal values of CMD, field by field (30_encoding.md R70). -/
theorem exists_decode_iff (v : Dword) :
    (∃ i, decode v = .ok i) ↔ v.toNat / 2 ^ 32 = 0 ∧ v.toNat / 2 ^ 8 % 2 ^ 24 = 0 ∧
      v.toNat % 2 ^ 8 ∈ [0x01, 0x02, 0x03, 0x04, 0x10, 0x11, 0x12, 0x13, 0x14, 0x15, 0x16, 0x17, 0x18] := by
  constructor
  · rintro ⟨i, hi⟩
    have hword : v.toNat = (opcodeOf i).toNat := by rw [decode_eq_ok_iff.mp hi, encodeCmd_toNat]
    rw [hword]
    cases i <;> decide
  · rintro ⟨hhigh, hreserved, hopc⟩
    have hlow : v.toNat % 2 ^ 8 = v.toNat := by omega
    have hmap := decodeIsTheOpcodeMap v
    rw [hlow] at hopc
    simpa [hmap, exists_or] using hopc

/-- LEN of MISALIGNED is no power of two (60_exceptions.md R156). -/
theorem faultOf_alignArg (memSize : Nat) {e : Engine} (hlen : isPow2 e.len = false) :
    faultOf memSize e .misaligned = some .alignArg := by
  simp [faultOf, needsOpenPhase, hlen]

/-- A command that passes the three checks of R158 raises no fault. -/
theorem faultOf_none {memSize : Nat} {e : Engine} {i : Instr}
    (hopen : needsOpenPhase i = true → e.phase.isActive = true) (halign : i = .misaligned → isPow2 e.len = true)
    (hrange : inRange memSize e.addr.toNat (memBytes e i) = true) : faultOf memSize e i = none := by
  have hphase : ¬ (needsOpenPhase i && !e.phase.isActive) = true := by simpa using hopen
  have hpow : ¬ (i = .misaligned ∧ isPow2 e.len = false) := by simpa using halign
  rw [faultOf, if_neg hphase, if_neg hpow, if_pos hrange]

/-- The commands with a range and the number of its bytes (60_exceptions.md R157). -/
theorem memBytes_beyond_iff (memSize : Nat) (e : Engine) (i : Instr) :
    (0 < memBytes e i ∧ memSize < e.addr.toNat + memBytes e i) ↔
      i = .update ∧ 0 < e.len.toNat ∧ memSize < e.addr.toNat + e.len.toNat ∨
      i = .finalize ∧ memSize < e.addr.toNat + 16 ∨
      i = .compress ∧ memSize < e.addr.toNat + 64 ∨
      i ∈ [Instr.ldLe32, .ldBe32, .stLe32, .stBe32] ∧ memSize < e.addr.toNat + 4 ∨
      i ∈ [Instr.ldLe64, .ldBe64, .stLe64, .stBe64] ∧ memSize < e.addr.toNat + 8 := by
  cases i <;> simp [memBytes]

/-! ### The statements -/

/-- Settles O15: the CMD write reaches the halted engine (`hostWrite_cmd`), which ignores it (`issue_halted`). -/
theorem haltedIgnoresCommandWrites : Obligations.HaltedIgnoresCommandWrites := by
  unfold Obligations.HaltedIgnoresCommandWrites
  intro s inst v rest e hp he hh
  calc step s = perform (.write { inst := inst, off := 0x00, bytes := 8 } v) (s.advance rest) := step_op hp
    _ = issue v { s.advance rest with sel := inst } := hostWrite_cmd v he
    _ = .next { s.advance rest with sel := inst } := issue_halted v he hh

/-- Settles O5: the grounds are the negation of `exists_decode_iff`. -/
theorem illegalWordFaults : Obligations.IllegalWordFaults := by
  unfold Obligations.IllegalWordFaults
  intro s e v hrun illegal
  have hlegal : ¬ illegal ↔ ∃ i, decode v = .ok i := by
    rw [exists_decode_iff]
    simp only [illegal, not_or, not_not]
  refine ⟨fun hillegal => ?_, fun hother => ?_⟩
  · cases hv : decode v with
    | ok i => exact absurd hillegal (hlegal.mpr ⟨i, hv⟩)
    | error x => exact issue_illegal hrun hv
  · obtain ⟨i, hv⟩ := hlegal.mp hother
    exact ⟨i, hv, issue_decoded hv hrun.1⟩

/-- Settles O12: each cause gives its fault in `faultOf`, and with none of them the command has its effect. -/
theorem faultsOfEachCommand : Obligations.FaultsOfEachCommand := by
  unfold Obligations.FaultsOfEachCommand
  intro s e i hrun usage alignArg range
  have hopen (h : ¬ usage) (hneeds : needsOpenPhase i = true) : e.phase.isActive = true := by
    by_contra hclosed
    exact h ⟨(needsOpenPhase_iff i).mp hneeds, (not_isActive_iff _).mp hclosed⟩
  have hbeyond : range ↔ 0 < memBytes e i ∧ s.cfg.memSize < e.addr.toNat + memBytes e i :=
    (memBytes_beyond_iff _ e i).symm
  refine ⟨?_, ?_, fun husage hrange => ?_, fun husage halign hrange => ?_⟩
  · rintro ⟨hi, hclosed⟩
    exact exec_takesFault hrun (faultOf_usage _ (by simpa [or_comm] using hi) hclosed)
  · rintro ⟨rfl, hlen⟩
    rw [← isPow2_iff_two_pow, Bool.not_eq_true] at hlen
    exact exec_takesFault hrun (faultOf_alignArg _ hlen)
  · obtain ⟨hbytes, hend⟩ := hbeyond.mp hrange
    exact exec_takesFault hrun (faultOf_range (hopen husage) hbytes hend)
  · have hpow (hi : i = .misaligned) : isPow2 e.len = true := by
      by_contra hlen
      exact halign ⟨hi, (isPow2_iff_two_pow _).not.mp hlen⟩
    have hin : inRange s.cfg.memSize e.addr.toNat (memBytes e i) = true := by
      by_contra hout
      exact hrange (hbeyond.mpr (inRange_eq_false.mp (by simpa using hout)))
    obtain ⟨f, hf, hhalted, hcode⟩ := effect_selected i hrun.1
    exact ⟨_, f, exec_noFault hrun (faultOf_none (hopen husage) hpow hin), hf, hhalted.trans hrun.2, hcode⟩

/-- Settles O14: both machines take the fault `cmdFault`, which is the same in both (`cmdFault_congr`). -/
theorem faultsIgnoreData : Obligations.FaultsIgnoreData := by
  unfold Obligations.FaultsIgnoreData
  intro v s s' t t' e e' f f' hrun hrun' hsize hphase haddr hlen ht ht' hf hf'
  have hsame : cmdFault s.cfg.memSize e v = cmdFault s'.cfg.memSize e' v := by
    rw [hsize]
    exact cmdFault_congr _ v hphase haddr hlen
  have hselected := issue_selected hrun ht hf
  rw [hsame] at hselected
  obtain ⟨c, hc, rfl⟩ | ⟨hnone, hrunning⟩ := hselected
  · obtain ⟨c', hc', rfl⟩ | ⟨hnone', -⟩ := issue_selected hrun' ht' hf'
    · cases hc.symm.trans hc'
      exact ⟨rfl, fun _ => rfl⟩
    · cases hc.symm.trans hnone'
  · obtain ⟨c', hc', -⟩ | ⟨-, hrunning'⟩ := issue_selected hrun' ht' hf'
    · cases hnone.symm.trans hc'
    · refine ⟨hrunning.trans hrunning'.symm, fun hhalted => ?_⟩
      cases hhalted.symm.trans hrunning

end Sys2Proof.Machine
end

section
/-! PROOF. Completion (70_reset_and_hazards.md R185), and what a halted engine keeps through a step and a run (R177, R188). -/

namespace Sys2Proof.Machine

/-- Settles O8: ignored, faulted or run, a command leaves a new engine and memory (`exec_beside`). -/
theorem everyCommandCompletes : Obligations.EveryCommandCompletes := by
  unfold Obligations.EveryCommandCompletes
  intro i s hsel
  have he : s.engines[s.sel]? = some s.engines[s.sel] := List.getElem?_eq_getElem hsel
  obtain ⟨e', m, hexec, -⟩ := exec_beside i he he
  exact ⟨_, hexec⟩

/-! ### A halted engine through one step -/

/-- Engine `j` is `e` in all but the operand registers, which host writes reach while it is halted (10_state.md R39). -/
def State.KeepsButOperands (s : State) (j : Nat) (e : Engine) : Prop :=
  ∃ a l v, s.engines[j]? = some { e with addr := a, len := l, val := v }

section Halted
variable {s t : State} {j : Nat} {e : Engine} (he : s.engines[j]? = some e)
include he

theorem keepsButOperands_of_getElem? : s.KeepsButOperands j e := ⟨e.addr, e.len, e.val, he⟩

/-- A register write, to this engine or another, reaches operand registers only (10_state.md R38). -/
theorem registerWritten_keepsButOperands {inst : Nat} {f : Engine} (hf : s.engines[inst]? = some f) (off : Nat)
    (v : Dword) :
    { s with sel := inst, engines := s.engines.set inst (f.writeOffset off v) }.KeepsButOperands j e := by
  by_cases hj : j = inst
  · subst hj
    cases he.symm.trans hf
    obtain ⟨a, l, w, heq⟩ := writeOffset_frame e off v
    rw [heq]
    exact ⟨a, l, w, withEngine_selected (s := { s with sel := j }) he⟩
  · exact keepsButOperands_of_getElem? ((withEngine_other { s with sel := inst } _ hj).trans he)

variable (hh : e.halted = true)
include hh

/-- A CMD write leaves a halted engine whole: its own is ignored (60_exceptions.md R153), another's does not reach it. -/
theorem issue_keeps_halted {v : Dword} (ht : issue v s = .next t) : t.engines[j]? = some e := by
  by_cases hj : j = s.sel
  · subst hj
    cases (issue_halted v he hh).symm.trans ht
    exact he
  · obtain ⟨e', m, rfl⟩ := issue_frame ht
    exact (withEngine_other s e' hj).trans he

theorem issueEach_keeps_halted {cmds : List (Nat × Dword)} (ht : issueEach cmds s = .next t) :
    t.engines[j]? = some e := by
  induction cmds generalizing s with
  | nil =>
    cases ht
    exact he
  | cons c cmds ih =>
    obtain ⟨u, hu, ht⟩ := andThen_next.mp ht
    exact ih (issue_keeps_halted (s := { s with sel := c.1 }) he hh hu) ht

/-- Every host operation but a reset of it leaves a halted engine all but its operand registers. -/
theorem HostChange.keeps_halted {op : HostOp} (hchange : HostChange s op t) (hop : op ≠ .reset j) :
    t.KeepsButOperands j e := by
  cases hchange with
  | loaded | registerRead | stored => exact keepsButOperands_of_getElem? he
  | registerWritten off v hf => exact registerWritten_keepsButOperands he hf off v
  | @issued _ inst _ _ _ ht =>
    exact keepsButOperands_of_getElem? (issue_keeps_halted (s := { s with sel := inst }) he hh ht)
  | @issuedTogether _ _ u _ ht =>
    have hu : u.engines[j]? = some e := issueEach_keeps_halted he hh ht
    exact keepsButOperands_of_getElem? (s := { u with sel := s.sel }) hu
  | @instanceReset inst _ =>
    have hj : j ≠ inst := fun h => hop (h ▸ rfl)
    exact keepsButOperands_of_getElem? ((withEngine_other { s with sel := inst } _ hj).trans he)

theorem step_keeps_halted (ht : step s = .next t) (hop : ∀ rest, s.prog ≠ .reset j :: rest) :
    t.KeepsButOperands j e := by
  obtain ⟨-, rfl⟩ | ⟨op, rest, hp, hchange⟩ := step_next ht
  · exact keepsButOperands_of_getElem? he
  · refine HostChange.keeps_halted (s := s.advance rest) he hh hchange ?_
    rintro rfl
    exact hop rest hp

end Halted

/-- Settles O16: the step is one host operation, and not a reset of the halted engine. -/
theorem onlyResetLeavesHalted : Obligations.OnlyResetLeavesHalted := by
  unfold Obligations.OnlyResetLeavesHalted
  intro s t j e he hh ht hop
  exact step_keeps_halted he hh ht hop

/-! ### A halted engine through a run -/

/-- A step adds no host operation to the program. -/
theorem step_prog_subset {s t : State} (ht : step s = .next t) : t.prog ⊆ s.prog := by
  obtain ⟨-, rfl⟩ | ⟨op, rest, hp, hchange⟩ := step_next ht
  · exact List.Subset.refl _
  · obtain ⟨hprog, -⟩ := hchange.run_eq
    rw [hprog, hp]
    exact List.subset_cons_self op rest

/-- A run of one more step that stops nowhere is that step and the run from where it leads. -/
theorem run_succ_next {M : Host.Core} {k : Nat} {s t : M.State} (h : M.run (k + 1) s = .next t) :
    ∃ u, M.step s = .next u ∧ M.run k u = .next t := by
  rw [Host.Core.run] at h
  split at h
  · next u hu => exact ⟨u, hu, h⟩
  · cases h
  · cases h

/-- A run whose program does not reset it leaves a halted engine all but its operand registers. -/
theorem run_keeps_halted {k : Nat} {s t : State} {j : Nat} {e : Engine} (he : s.engines[j]? = some e)
    (hh : e.halted = true) (hprog : .reset j ∉ s.prog) (ht : Sys2Proof.core.run k s = .next t) :
    t.KeepsButOperands j e := by
  induction k generalizing s e with
  | zero =>
    cases ht
    exact keepsButOperands_of_getElem? he
  | succ k ih =>
    obtain ⟨u, (hu : step s = .next u), ht⟩ := run_succ_next ht
    have hop (rest : List HostOp) : s.prog ≠ .reset j :: rest := fun hp => hprog (hp ▸ List.mem_cons_self)
    obtain ⟨a, l, v, he'⟩ := step_keeps_halted he hh hu hop
    have hend : t.KeepsButOperands j { e with addr := a, len := l, val := v } :=
      ih he' hh (fun h => hprog (step_prog_subset hu h)) ht
    exact hend

/-- A halted engine makes the end of the run a faulted one (70_reset_and_hazards.md R188). -/
theorem succeeded_eq_false {s : State} {j : Nat} {e : Engine} (he : s.engines[j]? = some e) (hh : e.halted = true) :
    s.succeeded = false := by
  have hany : s.anyHalted = true := List.any_eq_true.mpr ⟨e, List.mem_of_getElem? he, hh⟩
  rw [State.succeeded, hany, Bool.not_true, Bool.and_false]

/-- Settles O17: the engine is still halted where the run ends (`run_keeps_halted`). -/
theorem haltedRunNeverSucceeds : Obligations.HaltedRunNeverSucceeds := by
  unfold Obligations.HaltedRunNeverSucceeds
  intro k s t j e he hh hprog ht
  obtain ⟨a, l, v, hend⟩ := run_keeps_halted he hh (fun h => hprog _ h rfl) ht
  exact succeeded_eq_false hend hh

end Sys2Proof.Machine
end
